-- ==== Sys2Proof/Word.lean ====
section
/-! DEFINITION. The word types of the core (00_scope.md R5, R8): every value is an unsigned bit vector. -/

namespace Sys2Proof

/-- A memory cell, a register `V[i]`, a timer, an immediate `NN` (R5, R21, R26, R32). -/
abbrev Byte := BitVec 8

/-- A 16-bit quantity: `pc`, `I`, a stack entry, an instruction word (R5, R23, R24, R28, R70). -/
abbrev Word := BitVec 16

/-- A 4-bit field: a register index `X` or `Y`, a row count `N`, a key code, the latch `WX` (R33, R37, R71). -/
abbrev Nibble := BitVec 4

/-- A 12-bit address field `NNN` (R71). -/
abbrev Addr12 := BitVec 12

end Sys2Proof
end

