-- ==== Sys2Proof/Syntax.lean ====
section
/-! DEFINITION. The instruction set as syntax: one constructor per row of 30_encoding.md R74 (spec/opcode_table.json), the
six formats of R72 and the shape of an opcode-table row. -/

namespace Sys2Proof

/-- The 34 instructions, in the order of the table (R74). `x`, `y` select registers, `n` is a row count, `nn` an 8-bit
immediate, `nnn` a 12-bit address (R71, R73). -/
inductive Instr where
  /-- 00E0 -/
  | cls
  /-- 00EE -/
  | ret
  /-- 1NNN -/
  | jp (nnn : Addr12)
  /-- 2NNN -/
  | call (nnn : Addr12)
  /-- 3XNN -/
  | seI (x : Nibble) (nn : Byte)
  /-- 4XNN -/
  | sneI (x : Nibble) (nn : Byte)
  /-- 5XY0 -/
  | seR (x y : Nibble)
  /-- 6XNN -/
  | ldI (x : Nibble) (nn : Byte)
  /-- 7XNN -/
  | addI (x : Nibble) (nn : Byte)
  /-- 8XY0 -/
  | ldR (x y : Nibble)
  /-- 8XY1 -/
  | orR (x y : Nibble)
  /-- 8XY2 -/
  | andR (x y : Nibble)
  /-- 8XY3 -/
  | xorR (x y : Nibble)
  /-- 8XY4 -/
  | addR (x y : Nibble)
  /-- 8XY5 -/
  | sub (x y : Nibble)
  /-- 8XY6; `y` is ignored by the meaning and kept so that no bit of the word is lost (R79, R84; log 25). -/
  | shr (x y : Nibble)
  /-- 8XY7 -/
  | subn (x y : Nibble)
  /-- 8XYE; `y` as in 8XY6. -/
  | shl (x y : Nibble)
  /-- 9XY0 -/
  | sneR (x y : Nibble)
  /-- ANNN -/
  | ldIdx (nnn : Addr12)
  /-- BNNN -/
  | jpV0 (nnn : Addr12)
  /-- CXNN -/
  | rnd (x : Nibble) (nn : Byte)
  /-- DXYN -/
  | drw (x y n : Nibble)
  /-- EX9E -/
  | skp (x : Nibble)
  /-- EXA1 -/
  | sknp (x : Nibble)
  /-- FX07 -/
  | ldFromDt (x : Nibble)
  /-- FX0A -/
  | ldKey (x : Nibble)
  /-- FX15 -/
  | ldToDt (x : Nibble)
  /-- FX18 -/
  | ldToSt (x : Nibble)
  /-- FX1E -/
  | addIdx (x : Nibble)
  /-- FX29 -/
  | ldFont (x : Nibble)
  /-- FX33 -/
  | ldBcd (x : Nibble)
  /-- FX55 -/
  | stRegs (x : Nibble)
  /-- FX65 -/
  | ldRegs (x : Nibble)
deriving DecidableEq, Repr

/-- The six formats of R72, one per use of the fields. -/
inductive Format where
  | fix
  | addr
  | xImm
  | xy
  | xyn
  | xSub
deriving DecidableEq, Repr

/-- A row of the opcode table R74: a word selects the row for which `word & mask = fixed`. -/
structure Row where
  mnemonic : String
  fixed : Word
  mask : Word
  format : Format
deriving DecidableEq, Repr

/-- The fields the decoder cuts from an instruction word (R71). -/
structure Fields where
  op : Nibble
  x : Nibble
  y : Nibble
  n : Nibble
  nn : Byte
  nnn : Addr12
deriving DecidableEq, Repr

end Sys2Proof
end

