-- ==== Sys2Proof/WellFormed.lean ====
section
/-! DEFINITION. Well-formed operands (30_encoding.md R81, R83). A term of `Instr` carries its fields at their own widths, so
no `Instr` is ill-formed; what can be ill-formed is an operand as a programmer writes it, a number of any size: "an operand
outside its range (rule R81) is an assembly error, not an encoding". -/

namespace Sys2Proof

/-- The operands of one instruction as written: numbers of any size. `xSub` with a shift is its one-operand spelling,
`SHR Vx` and `SHL Vx` (R81). -/
inductive Operands where
  | none
  | addr (nnn : Nat)
  | xImm (x nn : Nat)
  | xy (x y : Nat)
  | xyn (x y n : Nat)
  | xSub (x : Nat)
deriving DecidableEq, Repr

/-- `Vx`, `Vy` are the register names V0 to VF (R81). -/
def Operands.regOk (x : Nat) : Bool := decide (x < 16)

/-- `nn` is a number 0..255 (R81). -/
def Operands.immOk (nn : Nat) : Bool := decide (nn < 256)

/-- `nnn` is a number 0..4095 (R81). -/
def Operands.addrOk (nnn : Nat) : Bool := decide (nnn < 4096)

/-- `n` is a number 0..15 (R81). -/
def Operands.rowsOk (n : Nat) : Bool := decide (n < 16)

/-- Every operand lies in its range (R81, R83). -/
def Operands.wellFormed : Operands → Bool
  | .none => true
  | .addr nnn => addrOk nnn
  | .xImm x nn => regOk x && immOk nn
  | .xy x y => regOk x && regOk y
  | .xyn x y n => regOk x && regOk y && rowsOk n
  | .xSub x => regOk x

/-- The operands of a decoded instruction, as numbers (R71). -/
def Instr.operands : Instr → Operands
  | .cls | .ret => .none
  | .jp nnn | .call nnn | .ldIdx nnn | .jpV0 nnn => .addr nnn.toNat
  | .seI x nn | .sneI x nn | .ldI x nn | .addI x nn | .rnd x nn => .xImm x.toNat nn.toNat
  | .seR x y | .ldR x y | .orR x y | .andR x y | .xorR x y | .addR x y | .sub x y | .shr x y | .subn x y | .shl x y
  | .sneR x y => .xy x.toNat y.toNat
  | .drw x y n => .xyn x.toNat y.toNat n.toNat
  | .skp x | .sknp x | .ldFromDt x | .ldKey x | .ldToDt x | .ldToSt x | .addIdx x | .ldFont x | .ldBcd x | .stRegs x
  | .ldRegs x => .xSub x.toNat

/-- An instruction is well formed when its operands are in range. -/
def Instr.wellFormed (i : Instr) : Bool := i.operands.wellFormed

end Sys2Proof
end

