-- ==== Sys2Proof/Decode.lean ====
section
/-! DEFINITION. The decoder, total on any word and on any bytes (30_encoding.md R70 to R79), the encoder written from the same
patterns, the opcode table R74 as data, and the assembly of a word from written operands (R83). -/

namespace Sys2Proof

/-! ### Fields (R71) -/

/-- The opcode class, `word[15:12]`. -/
def opField (w : Word) : Nibble := w.extractLsb' 12 4
/-- `X`, `word[11:8]`. -/
def xField (w : Word) : Nibble := w.extractLsb' 8 4
/-- `Y`, `word[7:4]`. -/
def yField (w : Word) : Nibble := w.extractLsb' 4 4
/-- `N`, `word[3:0]`. -/
def nField (w : Word) : Nibble := w.extractLsb' 0 4
/-- `NN`, `word[7:0]`. -/
def nnField (w : Word) : Byte := w.extractLsb' 0 8
/-- `NNN`, `word[11:0]`. -/
def nnnField (w : Word) : Addr12 := w.extractLsb' 0 12

/-- All the fields of a word (R71). -/
def fieldsOf (w : Word) : Fields :=
  { op := opField w, x := xField w, y := yField w, n := nField w, nn := nnField w, nnn := nnnField w }

/-! ### Decoding -/

/-- What the decoder answers: an instruction, or the word it rejects by name ("unknown", R75, R76). -/
inductive Decoded where
  | instr (i : Instr)
  | unknown (word : Word)
deriving DecidableEq, Repr

/-- Class 8, selected by the nibble `N` (R74 rows 10 to 18, R75). -/
def decodeClass8 (w : Word) : Decoded :=
  let x := xField w
  let y := yField w
  match (nField w).toNat with
  | 0x0 => .instr (.ldR x y)
  | 0x1 => .instr (.orR x y)
  | 0x2 => .instr (.andR x y)
  | 0x3 => .instr (.xorR x y)
  | 0x4 => .instr (.addR x y)
  | 0x5 => .instr (.sub x y)
  | 0x6 => .instr (.shr x y)
  | 0x7 => .instr (.subn x y)
  | 0xE => .instr (.shl x y)
  | _ => .unknown w

/-- Class E, selected by the byte `NN` (R74 rows 24, 25). -/
def decodeClassE (w : Word) : Decoded :=
  match (nnField w).toNat with
  | 0x9E => .instr (.skp (xField w))
  | 0xA1 => .instr (.sknp (xField w))
  | _ => .unknown w

/-- Class F, selected by the byte `NN` (R74 rows 26 to 34). -/
def decodeClassF (w : Word) : Decoded :=
  let x := xField w
  match (nnField w).toNat with
  | 0x07 => .instr (.ldFromDt x)
  | 0x0A => .instr (.ldKey x)
  | 0x15 => .instr (.ldToDt x)
  | 0x18 => .instr (.ldToSt x)
  | 0x1E => .instr (.addIdx x)
  | 0x29 => .instr (.ldFont x)
  | 0x33 => .instr (.ldBcd x)
  | 0x55 => .instr (.stRegs x)
  | 0x65 => .instr (.ldRegs x)
  | _ => .unknown w

/-- The decoder (R74 to R79): a total function from 16-bit words to an instruction or `unknown`. It is organised as R75 says:
the opcode class first, then for class 0 the whole word, for classes 5, 8, 9 the nibble `N`, for classes E and F the byte
`NN`. Literal nibbles match exactly (D7, log 10). -/
def decode (w : Word) : Decoded :=
  match (opField w).toNat with
  | 0x0 => if w = 0x00E0#16 then .instr .cls else if w = 0x00EE#16 then .instr .ret else .unknown w
  | 0x1 => .instr (.jp (nnnField w))
  | 0x2 => .instr (.call (nnnField w))
  | 0x3 => .instr (.seI (xField w) (nnField w))
  | 0x4 => .instr (.sneI (xField w) (nnField w))
  | 0x5 => if nField w = 0x0#4 then .instr (.seR (xField w) (yField w)) else .unknown w
  | 0x6 => .instr (.ldI (xField w) (nnField w))
  | 0x7 => .instr (.addI (xField w) (nnField w))
  | 0x8 => decodeClass8 w
  | 0x9 => if nField w = 0x0#4 then .instr (.sneR (xField w) (yField w)) else .unknown w
  | 0xA => .instr (.ldIdx (nnnField w))
  | 0xB => .instr (.jpV0 (nnnField w))
  | 0xC => .instr (.rnd (xField w) (nnField w))
  | 0xD => .instr (.drw (xField w) (yField w) (nField w))
  | 0xE => decodeClassE w
  | 0xF => decodeClassF w
  | _ => .unknown w

/-- The two bytes of a word, big-endian: the high byte first (20_memory.md R52). -/
def wordOfBytes (hi lo : Byte) : Word := hi ++ lo

/-- The byte at the lower address, `word[15:8]` (R52, R83). -/
def hiByte (w : Word) : Byte := w.extractLsb' 8 8

/-- The byte at the higher address, `word[7:0]` (R52, R83). -/
def loByte (w : Word) : Byte := w.extractLsb' 0 8

/-- Decoding any bytes: the first two are the word, the rest is handed back; fewer than two hold no word (R70). -/
def decodeBytes : List Byte → Option (Decoded × List Byte)
  | hi :: lo :: rest => some (decode (wordOfBytes hi lo), rest)
  | [_] => none
  | [] => none

/-! ### Encoding -/

/-- Four nibbles, most significant first (R7). -/
def nibbles (a b c d : Nibble) : Word := a ++ b ++ c ++ d

/-- The format `ADDR`: the class and `NNN` (R72). -/
def wordAddr (op : Nibble) (nnn : Addr12) : Word := op ++ nnn

/-- The formats `XIMM` and `XSUB`: the class, `X` and a byte (R72). -/
def wordXByte (op x : Nibble) (b : Byte) : Word := op ++ x ++ b

/-- The word of an instruction, from its pattern in R74. -/
def encode : Instr → Word
  | .cls => 0x00E0#16
  | .ret => 0x00EE#16
  | .jp nnn => wordAddr 0x1#4 nnn
  | .call nnn => wordAddr 0x2#4 nnn
  | .seI x nn => wordXByte 0x3#4 x nn
  | .sneI x nn => wordXByte 0x4#4 x nn
  | .seR x y => nibbles 0x5#4 x y 0x0#4
  | .ldI x nn => wordXByte 0x6#4 x nn
  | .addI x nn => wordXByte 0x7#4 x nn
  | .ldR x y => nibbles 0x8#4 x y 0x0#4
  | .orR x y => nibbles 0x8#4 x y 0x1#4
  | .andR x y => nibbles 0x8#4 x y 0x2#4
  | .xorR x y => nibbles 0x8#4 x y 0x3#4
  | .addR x y => nibbles 0x8#4 x y 0x4#4
  | .sub x y => nibbles 0x8#4 x y 0x5#4
  | .shr x y => nibbles 0x8#4 x y 0x6#4
  | .subn x y => nibbles 0x8#4 x y 0x7#4
  | .shl x y => nibbles 0x8#4 x y 0xE#4
  | .sneR x y => nibbles 0x9#4 x y 0x0#4
  | .ldIdx nnn => wordAddr 0xA#4 nnn
  | .jpV0 nnn => wordAddr 0xB#4 nnn
  | .rnd x nn => wordXByte 0xC#4 x nn
  | .drw x y n => nibbles 0xD#4 x y n
  | .skp x => wordXByte 0xE#4 x 0x9E#8
  | .sknp x => wordXByte 0xE#4 x 0xA1#8
  | .ldFromDt x => wordXByte 0xF#4 x 0x07#8
  | .ldKey x => wordXByte 0xF#4 x 0x0A#8
  | .ldToDt x => wordXByte 0xF#4 x 0x15#8
  | .ldToSt x => wordXByte 0xF#4 x 0x18#8
  | .addIdx x => wordXByte 0xF#4 x 0x1E#8
  | .ldFont x => wordXByte 0xF#4 x 0x29#8
  | .ldBcd x => wordXByte 0xF#4 x 0x33#8
  | .stRegs x => wordXByte 0xF#4 x 0x55#8
  | .ldRegs x => wordXByte 0xF#4 x 0x65#8

/-- The two bytes of an instruction as memory holds them (R70, R83). -/
def encodeBytes (i : Instr) : List Byte := [hiByte (encode i), loByte (encode i)]

/-! ### The opcode table R74 as data -/

/-- Rows 1 to 17 of R74. -/
def rowsLow : List Row :=
  [⟨"CLS", 0x00E0#16, 0xFFFF#16, .fix⟩, ⟨"RET", 0x00EE#16, 0xFFFF#16, .fix⟩, ⟨"JP", 0x1000#16, 0xF000#16, .addr⟩,
   ⟨"CALL", 0x2000#16, 0xF000#16, .addr⟩, ⟨"SE.I", 0x3000#16, 0xF000#16, .xImm⟩, ⟨"SNE.I", 0x4000#16, 0xF000#16, .xImm⟩,
   ⟨"SE.R", 0x5000#16, 0xF00F#16, .xy⟩, ⟨"LD.I", 0x6000#16, 0xF000#16, .xImm⟩, ⟨"ADD.I", 0x7000#16, 0xF000#16, .xImm⟩,
   ⟨"LD.R", 0x8000#16, 0xF00F#16, .xy⟩, ⟨"OR", 0x8001#16, 0xF00F#16, .xy⟩, ⟨"AND", 0x8002#16, 0xF00F#16, .xy⟩,
   ⟨"XOR", 0x8003#16, 0xF00F#16, .xy⟩, ⟨"ADD.R", 0x8004#16, 0xF00F#16, .xy⟩, ⟨"SUB", 0x8005#16, 0xF00F#16, .xy⟩,
   ⟨"SHR", 0x8006#16, 0xF00F#16, .xy⟩, ⟨"SUBN", 0x8007#16, 0xF00F#16, .xy⟩]

/-- Rows 18 to 34 of R74. -/
def rowsHigh : List Row :=
  [⟨"SHL", 0x800E#16, 0xF00F#16, .xy⟩, ⟨"SNE.R", 0x9000#16, 0xF00F#16, .xy⟩, ⟨"LD.IDX", 0xA000#16, 0xF000#16, .addr⟩,
   ⟨"JP.V0", 0xB000#16, 0xF000#16, .addr⟩, ⟨"RND", 0xC000#16, 0xF000#16, .xImm⟩, ⟨"DRW", 0xD000#16, 0xF000#16, .xyn⟩,
   ⟨"SKP", 0xE09E#16, 0xF0FF#16, .xSub⟩, ⟨"SKNP", 0xE0A1#16, 0xF0FF#16, .xSub⟩, ⟨"LD.FROMDT", 0xF007#16, 0xF0FF#16, .xSub⟩,
   ⟨"LD.KEY", 0xF00A#16, 0xF0FF#16, .xSub⟩, ⟨"LD.TODT", 0xF015#16, 0xF0FF#16, .xSub⟩, ⟨"LD.TOST", 0xF018#16, 0xF0FF#16, .xSub⟩,
   ⟨"ADD.IDX", 0xF01E#16, 0xF0FF#16, .xSub⟩, ⟨"LD.FONT", 0xF029#16, 0xF0FF#16, .xSub⟩, ⟨"LD.BCD", 0xF033#16, 0xF0FF#16, .xSub⟩,
   ⟨"ST.REGS", 0xF055#16, 0xF0FF#16, .xSub⟩, ⟨"LD.REGS", 0xF065#16, 0xF0FF#16, .xSub⟩]

/-- The 34 rows of R74, in the table's order. -/
def rows : List Row := rowsLow ++ rowsHigh

/-- A word selects a row when `word & mask = match` (R74). -/
def selects (w : Word) (r : Row) : Bool := decide (w &&& r.mask = r.fixed)

/-- The number of an instruction's row in R74, counted from 0. -/
def rowIndex : Instr → Nat
  | .cls => 0 | .ret => 1 | .jp _ => 2 | .call _ => 3 | .seI _ _ => 4 | .sneI _ _ => 5 | .seR _ _ => 6 | .ldI _ _ => 7
  | .addI _ _ => 8 | .ldR _ _ => 9 | .orR _ _ => 10 | .andR _ _ => 11 | .xorR _ _ => 12 | .addR _ _ => 13 | .sub _ _ => 14
  | .shr _ _ => 15 | .subn _ _ => 16 | .shl _ _ => 17 | .sneR _ _ => 18 | .ldIdx _ => 19 | .jpV0 _ => 20 | .rnd _ _ => 21
  | .drw _ _ _ => 22 | .skp _ => 23 | .sknp _ => 24 | .ldFromDt _ => 25 | .ldKey _ => 26 | .ldToDt _ => 27 | .ldToSt _ => 28
  | .addIdx _ => 29 | .ldFont _ => 30 | .ldBcd _ => 31 | .stRegs _ => 32 | .ldRegs _ => 33

/-- The mnemonic the opcode table gives an instruction (R74, R81). -/
def mnemonicOf (i : Instr) : String := ((rows[rowIndex i]?).map (·.mnemonic)).getD ""

/-! ### Assembly of a word from written operands (R83) -/

/-- The fields at the positions of R71, ORed into `match` (R83): `match | NNN`, `match | X<<8 | NN`,
`match | X<<8 | Y<<4 | N`, `match | X<<8`. The one-operand spelling of a shift encodes `Y` as 0 (R81). No word when the
operands are not of the row's format or not in range ("an operand outside its range is an assembly error"). -/
def assemble (r : Row) (ops : Operands) : Option Word :=
  if ops.wellFormed then
    match r.format, ops with
    | .fix, .none => some r.fixed
    | .addr, .addr nnn => some (r.fixed ||| BitVec.ofNat 16 nnn)
    | .xImm, .xImm x nn => some (r.fixed ||| (BitVec.ofNat 16 x <<< 8) ||| BitVec.ofNat 16 nn)
    | .xy, .xy x y => some (r.fixed ||| (BitVec.ofNat 16 x <<< 8) ||| (BitVec.ofNat 16 y <<< 4))
    | .xy, .xSub x =>
      if r.mnemonic = "SHR" ∨ r.mnemonic = "SHL" then some (r.fixed ||| (BitVec.ofNat 16 x <<< 8)) else none
    | .xyn, .xyn x y n =>
      some (r.fixed ||| (BitVec.ofNat 16 x <<< 8) ||| (BitVec.ofNat 16 y <<< 4) ||| BitVec.ofNat 16 n)
    | .xSub, .xSub x => some (r.fixed ||| (BitVec.ofNat 16 x <<< 8))
    | _, _ => none
  else none

/-! ### The host's view of the table -/

/-- The word an opcode-table row stands for, its bits numbered from the least significant bit of the first word; the bits
above `nbits` are 0. -/
def tableWord (nbits w : Nat) : Word := BitVec.ofNat 16 (w % 2 ^ nbits)

/-- The instruction the decoder reads from a table word laid out in memory as the hardware stores it (R52, R70). -/
def decodeTableWord (nbits w : Nat) : Option Instr :=
  match decodeBytes [hiByte (tableWord nbits w), loByte (tableWord nbits w)] with
  | some (.instr i, _) => some i
  | some (.unknown _, _) => none
  | none => none

end Sys2Proof
end

