-- ==== Sys2Proof/Config.lean ====
section
/-! DEFINITION. What the spec leaves free. The sizes of 00_scope.md R5 are fixed ("none is a parameter") and are written
out where they are used; the font is a field of the state (`Machine.State.font`, log 1). -/

namespace Sys2Proof.Config

/-- The byte drawn by the `n`-th execution of CXNN (00_scope.md R6, 10_state.md R34, D11, U4): a free value with no body,
so nothing can be proved of it beyond what holds for every byte (log 2). -/
opaque rnd (n : Nat) : Byte

end Sys2Proof.Config
end

