-- ==== Sys2Proof/Machine/State.lean ====
section
/-! DEFINITION. The state of the core as plain data (10_state.md R20: "the whole state of the core is the following and nothing
else"), the state after reset (R42), and the reasons a step can stop. Four fields are the model's own and no state of the
spec's (R40): `outcome` (log 4), `draws` (log 2), the parameter `font` (log 1) and `launched` (log 7). -/

namespace Sys2Proof.Machine

/-- `MEM` (R26): address and byte pairs, addresses strictly rising, no entry equal to what an unlisted address reads as
(`Memory.unlisted`, the reset contents; log 28). -/
abbrev Memory := List Host.Cell

/-- `FB` (R31): row `y` is entry `y`, and bit `x` of that entry is the pixel `FB[y][x]`, 1 for on. The storage order is not
architectural (D23, log 21). -/
abbrev FrameBuffer := Vector (BitVec 64) 32

/-- `MODE` (R36): execution states, not privilege modes (60_exceptions.md R216). -/
inductive Mode where
  | running
  | awaitingKey
  | halted
deriving DecidableEq, Repr

/-- The record of a fault (R38, 60_exceptions.md R201 to R203). -/
inductive FaultRecord where
  /-- 2NNN with SP = 16; `pc0` is the address of the 2NNN (R201). -/
  | stackOverflow (pc0 : Word)
  /-- 00EE with SP = 0; `pc0` is the address of the 00EE (R202). -/
  | stackUnderflow (pc0 : Word)
  /-- An access at 4096 or above; `addr` is the first offending address, `pc0` the address of the instruction (R203). -/
  | addressOutOfRange (addr pc0 : Word)
deriving DecidableEq, Repr

/-- The value a `step` transaction returns (40_step_cycle.md R106). -/
inductive StepOutcome where
  | ok
  | blocked
  | unknownOpcode (word : Word)
  | fault (record : FaultRecord)
deriving DecidableEq, Repr

/-- The whole state (R20). -/
structure State where
  /-- `MEM[0..4095]` (R26). -/
  mem : Memory
  /-- `V[0..15]`; `V[15]` is VF (R21, R22). -/
  v : Vector Byte 16
  /-- The address register `I`, 12 bits significant (R23). -/
  i : Word
  /-- The program counter (R24, R25). -/
  pc : Word
  /-- `STK[0..15]` (R28). -/
  stk : Vector Word 16
  /-- `SP`, the number of valid entries of `STK`, 0..16 (R28). -/
  sp : Fin 17
  /-- `FB` (R31). -/
  fb : FrameBuffer
  /-- The delay timer (R32). -/
  dt : Byte
  /-- The sound timer (R32). -/
  st : Byte
  /-- The key latch: `none` is the spec's own value, no current key (R33). -/
  key : Option Nibble
  /-- `MODE` (R36). -/
  mode : Mode
  /-- `WX`, the X of the pending FX0A (R37). -/
  wx : Nibble
  /-- `FAULT`: `none` is the spec's own value, no fault (R38). -/
  fault : Option FaultRecord
  /-- `SND_REP` (R39). -/
  sndRep : Bool
  /-- The model's own: what the most recent `step` returned (log 4). -/
  outcome : StepOutcome
  /-- The model's own: how many random bytes have been drawn, the index of the next free value (log 2). -/
  draws : Nat
  /-- The model's own: the parameter FONT the machine was built with; no transaction changes it (00_scope.md R6, log 1). -/
  font : Font
  /-- The model's own: a `load` has succeeded, the precondition of `step` (70_reset_and_hazards.md R233, log 7). -/
  launched : Bool
deriving DecidableEq, Repr

/-- The state after reset, which is a successful `load` and nothing else (R42, 70_reset_and_hazards.md R230), here of the empty
image under the default FONT. The last four fields are the model's (logs 1, 2, 4, 7). -/
def State.reset : State :=
  { mem := []
    v := Vector.replicate 16 0#8
    i := 0x000#16
    pc := 0x200#16
    stk := Vector.replicate 16 0#16
    sp := 0
    fb := Vector.replicate 32 0#64
    dt := 0#8
    st := 0#8
    key := none
    mode := .running
    wx := 0#4
    fault := none
    sndRep := false
    outcome := .ok
    draws := 0
    font := defaultFont
    launched := true }

/-- The machine as constructed with a FONT, before the first `load`: the same table with `len = 0` (R42, R233, D19). -/
def State.constructed (font : Font) : State := { State.reset with font := font, launched := false }

/-- Why a step of the model stops. The faults of the spec are not here: the spec describes what they do, so taking one is a
next state (R206, log 5). -/
inductive Fault where
  /-- Raised by `step` alone, in mode `Halted` with no fault recorded, which R38 and R44 rule out in every reachable state:
  R100 has no record to return there. Safe: the model stops where the spec says nothing (log 6). -/
  | haltedWithoutRecord
deriving DecidableEq, Repr

/-- Why the model refuses: a step outside the contract, or an instruction with no meaning. -/
inductive Refusal where
  /-- Raised by `exec` for an instruction not modelled yet; no arm of this model raises it. Safe: it stops. -/
  | notModelled (mnemonic : String)
  /-- Raised by `step` alone, before the first successful `load`, where the spec says to refuse (70_reset_and_hazards.md R233,
  D19, U9). Safe: it stops (log 7). -/
  | stepBeforeLoad
deriving DecidableEq, Repr

/-- What a step of this machine answers. -/
abbrev StepResult := Host.Outcome State Fault Refusal

end Sys2Proof.Machine
end

