-- ==== Sys2Proof/Machine/Ops.lean ====
section
/-! DEFINITION. The named operations every meaning is written with: memory, registers, program counter, stack, taking a fault,
fetch, and the step of a machine that waits, is halted, or met an unknown word. -/

namespace Sys2Proof.Machine

/-! ### Memory (10_state.md R26, R27; 20_memory.md R50 to R60) -/

/-- What an address that is not listed reads as, the reset contents (R42): the font at 0x000..0x04F, then zeros. -/
def Memory.unlisted (font : Font) (a : Nat) : Byte := if h : a < 80 then font[a] else 0#8

/-- The byte at `a`. -/
def Memory.read (font : Font) : Memory → Nat → Byte
  | [], a => Memory.unlisted font a
  | (c, b) :: m, a => if c = a then b else Memory.read font m a

/-- No entry for `a`. -/
def Memory.erase : Memory → Nat → Memory
  | [], _ => []
  | (c, b) :: m, a => if c = a then Memory.erase m a else (c, b) :: Memory.erase m a

/-- A new entry before the first larger address. -/
def Memory.insert : Memory → Nat → Byte → Memory
  | [], a, b => [(a, b)]
  | (c, d) :: m, a, b => if a < c then (a, b) :: (c, d) :: m else (c, d) :: Memory.insert m a b

/-- Storing `b` at `a`: an entry, or none where `b` is what the unlisted address reads as. -/
def Memory.write (font : Font) (m : Memory) (a : Nat) (b : Byte) : Memory :=
  if b = Memory.unlisted font a then m.erase a else (m.erase a).insert a b

/-- Storing bytes one at a time at ascending addresses (R54). -/
def Memory.storeBytes (font : Font) : Memory → Nat → List Byte → Memory
  | m, _, [] => m
  | m, a, b :: bs => Memory.storeBytes font (Memory.write font m a b) (a + 1) bs

/-- The `k` bytes at `a`, `a+1`, ... (R54). -/
def Memory.loadBytes (font : Font) (m : Memory) : Nat → Nat → List Byte
  | _, 0 => []
  | a, k + 1 => Memory.read font m a :: Memory.loadBytes font m (a + 1) k

/-- The entries of an image placed at `a` on memory as reset leaves it (R42). -/
def Memory.ofImage (font : Font) : Nat → List Byte → Memory
  | _, [] => []
  | a, b :: bs =>
    if b = Memory.unlisted font a then Memory.ofImage font (a + 1) bs else (a, b) :: Memory.ofImage font (a + 1) bs

/-- Addresses strictly rising from a bound on, below 4096, and no entry equal to what the address reads as unlisted. -/
def Memory.wfFrom (font : Font) : Nat → Memory → Bool
  | _, [] => true
  | lo, (c, b) :: m =>
    decide (lo ≤ c) && decide (c < 4096) && decide (b ≠ Memory.unlisted font c) && Memory.wfFrom font (c + 1) m

/-- The canonical form of memory (log 28). -/
def Memory.wf (font : Font) (m : Memory) : Bool := Memory.wfFrom font 0 m

/-- The byte of `MEM` at `a`. -/
def State.byteAt (s : State) (a : Nat) : Byte := s.mem.read s.font a

/-- The `k` bytes of `MEM` from `a` on. -/
def State.loadBytes (s : State) (a k : Nat) : List Byte := s.mem.loadBytes s.font a k

/-- Bytes stored into `MEM` from `a` on. -/
def State.storeBytes (s : State) (a : Nat) (bs : List Byte) : State := { s with mem := s.mem.storeBytes s.font a bs }

/-! ### Registers (R21) -/

/-- A register field is an index of `V`: 4 bits, 16 registers (R21, R71). -/
theorem regIndex_lt (r : Nibble) : r.toNat < 16 := r.isLt

/-- `V[r]`. -/
def State.getV (s : State) (r : Nibble) : Byte := s.v[r.toNat]'(regIndex_lt r)

/-- `V[r] <- b`. None is hardwired (R21). -/
def State.setV (s : State) (r : Nibble) (b : Byte) : State := { s with v := s.v.set r.toNat b (regIndex_lt r) }

/-- `V[r], V[r+1], ... <- bs`, for as many as there are bytes. -/
def State.setRegs : State → Nat → List Byte → State
  | s, _, [] => s
  | s, r, b :: bs => State.setRegs (s.setV (BitVec.ofNat 4 r) b) (r + 1) bs

/-- The bytes `V[r], V[r+1], ...`, `k` of them. -/
def State.regBytes (s : State) : Nat → Nat → List Byte
  | _, 0 => []
  | r, k + 1 => s.getV (BitVec.ofNat 4 r) :: State.regBytes s (r + 1) k

/-! ### The program counter (R24) -/

/-- The advance by 2 before dispatch, and the outcome a rule leaves when it does not say (40_step_cycle.md R95, R97). -/
def State.advance (s : State) : State := { s with pc := s.pc + 2#16, outcome := .ok }

/-- `skip`: two more bytes, blind (42_skip.md R120). -/
def State.skip (s : State) : State := { s with pc := s.pc + 2#16 }

/-- `if c then skip`. -/
def State.skipIf (s : State) (c : Bool) : State := if c then s.skip else s

/-! ### The return stack (R28 to R30) -/

/-- `push(v)` (R29): the check first, then the entry, then the count. -/
def State.push (s : State) (v pc0 : Word) : Except FaultRecord State :=
  if h : s.sp.val = 16 then .error (.stackOverflow pc0)
  else
    have hlt : s.sp.val < 16 := by have := s.sp.isLt; omega
    .ok { s with stk := s.stk.set s.sp.val v hlt, sp := ⟨s.sp.val + 1, by omega⟩ }

/-- `pop()` (R30): the entry that was the top, and the state with one fewer; its bits stay in `STK`. -/
def State.pop (s : State) (pc0 : Word) : Except FaultRecord (Word × State) :=
  if h : s.sp.val = 0 then .error (.stackUnderflow pc0)
  else
    have hlt : s.sp.val - 1 < 16 := by have := s.sp.isLt; omega
    .ok (s.stk[s.sp.val - 1], { s with sp := ⟨s.sp.val - 1, by omega⟩ })

/-! ### Bounds (20_memory.md R55, R56; D3) -/

/-- The check of a data range `base .. base+len-1`, made before anything is read or written: an empty range has nothing to
check, and a range that reaches 4096 raises `AddressOutOfRange(4096, pc0)` (R56, 44_index_memory.md R154 to R156,
45_display.md R162; log 9). -/
def checkRange (base len : Nat) (pc0 : Word) : Except FaultRecord Unit :=
  if 0 < len ∧ 4096 ≤ base + len - 1 then .error (.addressOutOfRange 0x1000#16 pc0) else .ok ()

/-! ### Faults (60_exceptions.md R200 to R214) -/

/-- Taking a fault (R206, 40_step_cycle.md R99): every piece of state keeps the value it had before the step, `pc` included;
then `MODE`, `FAULT` and the outcome change. Control goes nowhere: the core stops. There is no return (R213). -/
def State.takeFault (s : State) (f : FaultRecord) : State :=
  { s with mode := .halted, fault := some f, outcome := .fault f }

/-- Running one instruction's rule (R97, R99, R107): the rule sees the advanced state; if it raises, the state at entry is
what the fault is taken in. -/
def runRule (s : State) (rule : State → Except FaultRecord State) : StepResult :=
  match rule s.advance with
  | .ok t => .next t
  | .error f => .next (s.takeFault f)

/-- The number of a fault, where one is needed (R208, D24, log 22). -/
def FaultRecord.code : FaultRecord → Nat
  | .stackOverflow _ => 1
  | .stackUnderflow _ => 2
  | .addressOutOfRange _ _ => 3

/-- The number of what a step reports, where it reports an error: a fault's, or 4 for the diagnostic (R208). -/
def StepOutcome.code : StepOutcome → Option Nat
  | .ok => none
  | .blocked => none
  | .unknownOpcode _ => some 4
  | .fault f => some f.code

/-! ### The parts of `step` (40_step_cycle.md R92 to R107) -/

/-- Fetch (R94): both addresses are validated, then the word is read big-endian (R52). The offending address is `pc0` when
`pc0 >= 4096` and 4096 when `pc0 = 0xFFF`. -/
def State.fetch (s : State) : Except FaultRecord Word :=
  if 4096 ≤ s.pc.toNat then .error (.addressOutOfRange s.pc s.pc)
  else if 4096 ≤ s.pc.toNat + 1 then .error (.addressOutOfRange (s.pc + 1#16) s.pc)
  else .ok (wordOfBytes (s.byteAt s.pc.toNat) (s.byteAt (s.pc.toNat + 1)))

/-- A step in mode `AwaitingKey` (R93): a latched key resolves the wait, else nothing changes. Nothing is fetched. -/
def State.awaitStep (s : State) : State :=
  match s.key with
  | some k => { s.setV s.wx (k.setWidth 8) with mode := .running, outcome := .ok }
  | none => { s with outcome := .blocked }

/-- A step in mode `Halted` (R100): the same record, nothing changes. -/
def State.haltedStep (s : State) : StepResult :=
  match s.fault with
  | some f => .next { s with outcome := .fault f }
  | none => .fault .haltedWithoutRecord

/-- An unknown opcode (R98, 30_encoding.md R77): the advance stands, nothing else changes, the diagnostic is reported. -/
def State.unknownStep (s : State) (w : Word) : State := { s with pc := s.pc + 2#16, outcome := .unknownOpcode w }

/-- Where a program comes to stand for the host's probe: the address the next fetch reads, or the entry point when `pc` is
beyond the last address a word can be fetched from (log 30). -/
def State.fetchPoint (s : State) : Word := if s.pc.toNat ≤ 0xFFE then s.pc else 0x200#16

/-- The word placed where the next step fetches, in a core that is loaded and runs (log 30). -/
def State.placeWord (s : State) (w : Word) : State :=
  { s.storeBytes s.fetchPoint.toNat [hiByte w, loByte w] with
    pc := s.fetchPoint
    mode := .running
    fault := none
    launched := true }

end Sys2Proof.Machine
end

