-- ==== Sys2Proof/Machine/Flags.lean ====
section
/-! DEFINITION. The one flag, VF = `V[15]` (10_state.md R22), its conditions (43_alu.md R130, R137 to R141), and the order of
the result and the flag. -/

namespace Sys2Proof.Machine

/-- VF (R22). -/
def vf : Nibble := 0xF#4

/-- A flag value: exactly 0 or 1 (R22, R130). -/
def flagByte (c : Bool) : Byte := if c then 1#8 else 0#8

/-- `V[15] <- 1 if c else 0`. -/
def State.setFlag (s : State) (c : Bool) : State := s.setV vf (flagByte c)

/-- Carry out of an 8-bit addition: the true sum exceeds 255 (R137). -/
def carry (a b : Byte) : Bool := decide (a.toNat + b.toNat > 255)

/-- Not-borrow of `a - b`: the minuend is at least the subtrahend (R138, R140, R143). -/
def notBorrow (a b : Byte) : Bool := decide (a.toNat ≥ b.toNat)

/-- The bit a right shift by one shifts out (R139). -/
def bitOutRight (a : Byte) : Bool := a.getLsbD 0

/-- The bit a left shift by one shifts out (R141). -/
def bitOutLeft (a : Byte) : Bool := a.getLsbD 7

/-- The result to `V[x]` and then the flag to VF: with X = 0xF the flag is what remains (R130, D8, log 11). -/
def State.setResultAndFlag (s : State) (x : Nibble) (result : Byte) (flag : Bool) : State :=
  (s.setV x result).setFlag flag

end Sys2Proof.Machine
end

