-- ==== Sys2Proof/Machine/Operands.lean ====
section
/-! DEFINITION. The operand forms (30_encoding.md R73): registers are read by `State.getV`, an 8-bit immediate is used as it
stands, an address is zero-extended, and the one memory operand is the range that starts at `I` (44_index_memory.md R150). -/

namespace Sys2Proof.Machine

/-- `NNN` as a 16-bit address: "a byte address used as it stands", bits 15:12 zero (R73). -/
def addrOperand (nnn : Addr12) : Word := nnn.setWidth 16

/-- `zext_16(V[x])`. -/
def State.getV16 (s : State) (x : Nibble) : Word := (s.getV x).setWidth 16

/-- The base of every data range: `I`, an ordinary integer, with no wrap-around (R150). -/
def State.base (s : State) : Nat := s.i.toNat

/-- How many registers, and bytes, `V[0..X]` are: the range is inclusive at both ends (44_index_memory.md R155, R156). -/
def rangeCount (x : Nibble) : Nat := x.toNat + 1

/-- The bytes of `V[0..X]` in ascending order. -/
def State.regRange (s : State) (x : Nibble) : List Byte := s.regBytes 0 (rangeCount x)

/-- The three decimal digits of a byte, each a whole byte: hundreds, tens, ones (R154). -/
def bcdDigits (b : Byte) : List Byte :=
  [BitVec.ofNat 8 (b.toNat / 100), BitVec.ofNat 8 (b.toNat / 10 % 10), BitVec.ofNat 8 (b.toNat % 10)]

/-- Whether the key code `v` names is the current key (46_keypad.md R170): a full 8-bit comparison with the code
zero-extended; false when there is no current key. -/
def State.keyIs (s : State) (v : Byte) : Bool :=
  match s.key with
  | some k => decide (v = k.setWidth 8)
  | none => false

end Sys2Proof.Machine
end

