-- ==== Sys2Proof/Machine/Alu.lean ====
section
/-! DEFINITION. Register load, arithmetic, logic, shift and random (43_alu.md). None can fault; operands are read in the state
before any write (R130). -/

namespace Sys2Proof.Machine

/-- 6XNN: `V[X] <- NN` (R131). -/
def execLdI (x : Nibble) (nn : Byte) (s : State) : StepResult := .next (s.advance.setV x nn)

/-- 7XNN: `V[X] <- (V[X] + NN) mod 256`, no flag (R132). -/
def execAddI (x : Nibble) (nn : Byte) (s : State) : StepResult := .next (s.advance.setV x (s.getV x + nn))

/-- 8XY0: `V[X] <- V[Y]` (R133). -/
def execLdR (x y : Nibble) (s : State) : StepResult := .next (s.advance.setV x (s.getV y))

/-- 8XY1: `V[X] <- V[X] | V[Y]`, VF neither cleared nor set (R134). -/
def execOr (x y : Nibble) (s : State) : StepResult := .next (s.advance.setV x (s.getV x ||| s.getV y))

/-- 8XY2: `V[X] <- V[X] & V[Y]` (R135). -/
def execAnd (x y : Nibble) (s : State) : StepResult := .next (s.advance.setV x (s.getV x &&& s.getV y))

/-- 8XY3: `V[X] <- V[X] ^ V[Y]` (R136). -/
def execXor (x y : Nibble) (s : State) : StepResult := .next (s.advance.setV x (s.getV x ^^^ s.getV y))

/-- 8XY4: the sum, then VF = carry (R137). -/
def execAddR (x y : Nibble) (s : State) : StepResult :=
  .next (s.advance.setResultAndFlag x (s.getV x + s.getV y) (carry (s.getV x) (s.getV y)))

/-- 8XY5: `V[X] - V[Y]`, then VF = not borrow (R138). -/
def execSub (x y : Nibble) (s : State) : StepResult :=
  .next (s.advance.setResultAndFlag x (s.getV x - s.getV y) (notBorrow (s.getV x) (s.getV y)))

/-- 8XY6: `V[X] >> 1`, then VF = the bit shifted out; `Y` is ignored (R139, 30_encoding.md R79). -/
def execShr (x _y : Nibble) (s : State) : StepResult :=
  .next (s.advance.setResultAndFlag x (s.getV x >>> 1) (bitOutRight (s.getV x)))

/-- 8XY7: `V[Y] - V[X]`, then VF = not borrow (R140). -/
def execSubn (x y : Nibble) (s : State) : StepResult :=
  .next (s.advance.setResultAndFlag x (s.getV y - s.getV x) (notBorrow (s.getV y) (s.getV x)))

/-- 8XYE: `V[X] << 1`, then VF = the bit shifted out; `Y` is ignored (R141, 30_encoding.md R79). -/
def execShl (x _y : Nibble) (s : State) : StepResult :=
  .next (s.advance.setResultAndFlag x (s.getV x <<< 1) (bitOutLeft (s.getV x)))

/-- CXNN: a fresh unconstrained draw masked by `NN` (R142, D11, log 2). -/
def execRnd (x : Nibble) (nn : Byte) (s : State) : StepResult :=
  .next { s.advance.setV x (Config.rnd s.draws &&& nn) with draws := s.draws + 1 }

end Sys2Proof.Machine
end

