-- ==== Sys2Proof/Machine/Display.lean ====
section
/-! DEFINITION. The display buffer and its two instructions (45_display.md). -/

namespace Sys2Proof.Machine

/-- `FB[y][x]` (10_state.md R31). -/
def pixel (fb : FrameBuffer) (x : Fin 64) (y : Fin 32) : Bool := fb[y].getLsbD x.val

/-- `FB[y][x] <- FB[y][x] ^ 1`. -/
def flipPixel (fb : FrameBuffer) (x : Fin 64) (y : Fin 32) : FrameBuffer :=
  fb.set y.val (fb[y] ^^^ (1#64 <<< x.val)) y.isLt

/-- The column a coordinate falls on: taken modulo 64 (R164). -/
def wrapX (x : Nat) : Fin 64 := Fin.ofNat 64 x

/-- The row a coordinate falls on: taken modulo 32 (R164). -/
def wrapY (y : Nat) : Fin 32 := Fin.ofNat 32 y

/-- The buffer and whether a collision has happened so far (R162, R163). -/
abbrev Drawing := FrameBuffer × Bool

/-- One set sprite bit at `(x, y)`: an on pixel collides; the pixel flips (R162, R163). -/
def drawBit (d : Drawing) (x y : Nat) : Drawing :=
  (flipPixel d.1 (wrapX x) (wrapY y), d.2 || pixel d.1 (wrapX x) (wrapY y))

/-- Column `col` of a sprite row is bit `7 - col` of its byte: the most significant bit is leftmost (R160, D12, log 3). -/
def spriteBit (b : Byte) (col : Nat) : Bool := b.getLsbD (7 - col)

/-- One row byte at `(x0, y)`: its eight columns (R162). -/
def drawRow (d : Drawing) (x0 y : Nat) (b : Byte) : Drawing :=
  (List.range 8).foldl (fun d col => if spriteBit b col then drawBit d (x0 + col) y else d) d

/-- The rows of a sprite, row 0 first, at `(x0, y)` and below (R160, R162). -/
def drawRows (d : Drawing) (x0 : Nat) : Nat → List Byte → Drawing
  | _, [] => d
  | y, b :: bs => drawRows (drawRow d x0 y b) x0 (y + 1) bs

/-- 00E0: every pixel off; VF untouched (R161). -/
def execCls (s : State) : StepResult := .next { s.advance with fb := Vector.replicate 32 0#64 }

/-- DXYN: XOR an 8 x N sprite from `I..I+N-1` at `(V[X], V[Y])`, coordinates read before VF is written, then VF = collision
(R162). -/
def execDrw (x y n : Nibble) (s : State) : StepResult :=
  runRule s fun t => do
    checkRange t.base n.toNat s.pc
    let d := drawRows (t.fb, false) (t.getV x).toNat (t.getV y).toNat (t.loadBytes t.base n.toNat)
    .ok ({ t with fb := d.1 }.setFlag d.2)

end Sys2Proof.Machine
end

