-- ==== Sys2Proof/Machine/Flow.lean ====
section
/-! DEFINITION. Control transfer (41_flow.md): targets are taken as they stand, with no alignment and no bound check at the
transfer (R110, D21, log 20); the return address lives on the stack. -/

namespace Sys2Proof.Machine

/-- 00EE: `pc <- pop()` (R111). -/
def execRet (s : State) : StepResult :=
  runRule s fun t => do
    let (v, t) ← t.pop s.pc
    .ok { t with pc := v }

/-- 1NNN: `pc <- NNN` (R112). -/
def execJp (nnn : Addr12) (s : State) : StepResult := .next { s.advance with pc := addrOperand nnn }

/-- 2NNN: push the advanced `pc`, then `pc <- NNN` (R113). -/
def execCall (nnn : Addr12) (s : State) : StepResult :=
  runRule s fun t => do
    let t ← t.push t.pc s.pc
    .ok { t with pc := addrOperand nnn }

/-- BNNN: `pc <- V[0] + NNN`, a 16-bit sum, no mask (R114). -/
def execJpV0 (nnn : Addr12) (s : State) : StepResult :=
  .next { s.advance with pc := s.getV16 0x0#4 + addrOperand nnn }

end Sys2Proof.Machine
end

