-- ==== Sys2Proof/Machine/Index.lean ====
section
/-! DEFINITION. Address register and memory transfers (44_index_memory.md). The transfers check their whole range first and
leave `I` as it is (R150, D3, D15, logs 9 and 16); none writes VF as a flag. -/

namespace Sys2Proof.Machine

/-- ANNN: `I <- NNN & 0x0FFF` (R151). -/
def execLdIdx (nnn : Addr12) (s : State) : StepResult := .next { s.advance with i := addrOperand nnn &&& 0x0FFF#16 }

/-- FX1E: `I <- (I + V[X]) mod 4096`, VF untouched (R152). -/
def execAddIdx (x : Nibble) (s : State) : StepResult :=
  .next { s.advance with i := BitVec.ofNat 16 ((s.i.toNat + (s.getV x).toNat) % 4096) }

/-- FX29: `I <- 5 * V[X]`, the whole 8-bit value (R153, D31, log 26). -/
def execLdFont (x : Nibble) (s : State) : StepResult := .next { s.advance with i := 5#16 * s.getV16 x }

/-- FX33: the three decimal digits of `V[X]` to `I`, `I+1`, `I+2` (R154). -/
def execLdBcd (x : Nibble) (s : State) : StepResult :=
  runRule s fun t => do
    checkRange t.base 3 s.pc
    .ok (t.storeBytes t.base (bcdDigits (t.getV x)))

/-- FX55: `V[0..X]` to `I..I+X` (R155). -/
def execStRegs (x : Nibble) (s : State) : StepResult :=
  runRule s fun t => do
    checkRange t.base (rangeCount x) s.pc
    .ok (t.storeBytes t.base (t.regRange x))

/-- FX65: `I..I+X` to `V[0..X]` (R156). -/
def execLdRegs (x : Nibble) (s : State) : StepResult :=
  runRule s fun t => do
    checkRange t.base (rangeCount x) s.pc
    .ok (t.setRegs 0 (t.loadBytes t.base (rangeCount x)))

end Sys2Proof.Machine
end

