-- ==== Sys2Proof/Machine/Keypad.lean ====
section
/-! DEFINITION. The instructions that consult the key latch (46_keypad.md). None writes VF; none can fault (R170). -/

namespace Sys2Proof.Machine

/-- EX9E: `if key_is(V[X]) then skip` (R171). -/
def execSkp (x : Nibble) (s : State) : StepResult := .next (s.advance.skipIf (s.keyIs (s.getV x)))

/-- EXA1: `if not key_is(V[X]) then skip` (R172). -/
def execSknp (x : Nibble) (s : State) : StepResult := .next (s.advance.skipIf (!s.keyIs (s.getV x)))

/-- FX0A: enter the wait (R173, D9, log 12); it ends in a later step, `State.awaitStep`. -/
def execLdKey (x : Nibble) (s : State) : StepResult :=
  .next { s.advance with wx := x, mode := .awaitingKey, outcome := .blocked }

end Sys2Proof.Machine
end

