-- ==== Sys2Proof/Machine/Skip.lean ====
section
/-! DEFINITION. Conditional skips (42_skip.md): equality of unsigned 8-bit values; no register is written and none can fault
(R120). -/

namespace Sys2Proof.Machine

/-- 3XNN: `if V[X] = NN then skip` (R121). -/
def execSeI (x : Nibble) (nn : Byte) (s : State) : StepResult := .next (s.advance.skipIf (decide (s.getV x = nn)))

/-- 4XNN: `if V[X] /= NN then skip` (R122). -/
def execSneI (x : Nibble) (nn : Byte) (s : State) : StepResult := .next (s.advance.skipIf (decide (s.getV x ≠ nn)))

/-- 5XY0: `if V[X] = V[Y] then skip` (R123). -/
def execSeR (x y : Nibble) (s : State) : StepResult := .next (s.advance.skipIf (decide (s.getV x = s.getV y)))

/-- 9XY0: `if V[X] /= V[Y] then skip` (R124). -/
def execSneR (x y : Nibble) (s : State) : StepResult := .next (s.advance.skipIf (decide (s.getV x ≠ s.getV y)))

end Sys2Proof.Machine
end

