-- ==== Sys2Proof/Machine/Timers.lean ====
section
/-! DEFINITION. The timer instructions (47_timers.md); the decrement is a host transaction, `tickTimers`. -/

namespace Sys2Proof.Machine

/-- FX07: `V[X] <- DT` (R181). -/
def execLdFromDt (x : Nibble) (s : State) : StepResult := .next (s.advance.setV x s.dt)

/-- FX15: `DT <- V[X]` (R182). -/
def execLdToDt (x : Nibble) (s : State) : StepResult := .next { s.advance with dt := s.getV x }

/-- FX18: `ST <- V[X]`; `SND_REP` is not touched (R183). -/
def execLdToSt (x : Nibble) (s : State) : StepResult := .next { s.advance with st := s.getV x }

end Sys2Proof.Machine
end

