-- ==== Sys2Proof/Machine/Step.lean ====
section
/-! DEFINITION. The `step` transaction, gathered (40_step_cycle.md R107), and the placing of a word where it fetches. -/

namespace Sys2Proof.Machine

/-- One `step` (R92, R107): by the mode, resolve a wait, report a halt, or fetch, decode and run one instruction. Its
precondition is a loaded program; before the first successful `load` it is refused (70_reset_and_hazards.md R233, log 7). -/
def step (s : State) : Host.Outcome State Fault Refusal :=
  match s.launched with
  | false => .refused .stepBeforeLoad
  | true =>
    match s.mode with
    | .halted => s.haltedStep
    | .awaitingKey => .next s.awaitStep
    | .running =>
      match s.fetch with
      | .error f => .next (s.takeFault f)
      | .ok w =>
        match decode w with
        | .instr i => exec i s
        | .unknown word => .next (s.unknownStep word)

/-- `s` with a table word stored where the next step fetches (log 30). -/
def State.withFetchWord (s : State) (nbits w : Nat) : State := s.placeWord (tableWord nbits w)

end Sys2Proof.Machine
end

