-- ==== Sys2Proof/Machine/Assembly.lean ====
section
/-! DEFINITION. The assembly notation of 30_encoding.md R81 to R84 as data: tokens, lines, the two directives and labels, the
word of a line and the image of a listing, and disassembly, which is total. It is a notation beside the machine (D22, log 31). -/

namespace Sys2Proof

/-- The words of the notation (R81). -/
inductive AsmWord where
  | cls | ret | jp | call | se | sne | ld | add | or | and | xor | sub | shr | subn | shl | rnd | drw | skp | sknp
deriving DecidableEq, Repr

/-- An operand as written (R81). -/
inductive Arg where
  /-- `Vx` -/
  | reg (x : Nat)
  /-- `nn`, `nnn` or `n` -/
  | num (n : Nat)
  /-- a label in the place of `nnn` -/
  | label (name : String)
  /-- `I` -/
  | i
  /-- `[I]` -/
  | atI
  /-- `DT` -/
  | dt
  /-- `ST` -/
  | st
  /-- `K` -/
  | k
  /-- `F` -/
  | f
  /-- `B` -/
  | b
deriving DecidableEq, Repr

/-- The word of row `k` of the table with the given operands (R83). -/
def assembleRow (k : Nat) (ops : Operands) : Option Word :=
  match rows[k]? with
  | some r => assemble r ops
  | none => none

/-- The word of a line: the table R81, from the operands to the row, and then R83. No word: the line is no line of R81, or an
operand is out of its range. -/
def assembleLine (word : AsmWord) (args : List Arg) : Option Word :=
  match word, args with
  | .cls, [] => assembleRow 0 .none
  | .ret, [] => assembleRow 1 .none
  | .jp, [.num nnn] => assembleRow 2 (.addr nnn)
  | .call, [.num nnn] => assembleRow 3 (.addr nnn)
  | .se, [.reg x, .num nn] => assembleRow 4 (.xImm x nn)
  | .sne, [.reg x, .num nn] => assembleRow 5 (.xImm x nn)
  | .se, [.reg x, .reg y] => assembleRow 6 (.xy x y)
  | .ld, [.reg x, .num nn] => assembleRow 7 (.xImm x nn)
  | .add, [.reg x, .num nn] => assembleRow 8 (.xImm x nn)
  | .ld, [.reg x, .reg y] => assembleRow 9 (.xy x y)
  | .or, [.reg x, .reg y] => assembleRow 10 (.xy x y)
  | .and, [.reg x, .reg y] => assembleRow 11 (.xy x y)
  | .xor, [.reg x, .reg y] => assembleRow 12 (.xy x y)
  | .add, [.reg x, .reg y] => assembleRow 13 (.xy x y)
  | .sub, [.reg x, .reg y] => assembleRow 14 (.xy x y)
  | .shr, [.reg x] => assembleRow 15 (.xSub x)
  | .shr, [.reg x, .reg y] => assembleRow 15 (.xy x y)
  | .subn, [.reg x, .reg y] => assembleRow 16 (.xy x y)
  | .shl, [.reg x] => assembleRow 17 (.xSub x)
  | .shl, [.reg x, .reg y] => assembleRow 17 (.xy x y)
  | .sne, [.reg x, .reg y] => assembleRow 18 (.xy x y)
  | .ld, [.i, .num nnn] => assembleRow 19 (.addr nnn)
  | .jp, [.reg 0, .num nnn] => assembleRow 20 (.addr nnn)
  | .rnd, [.reg x, .num nn] => assembleRow 21 (.xImm x nn)
  | .drw, [.reg x, .reg y, .num n] => assembleRow 22 (.xyn x y n)
  | .skp, [.reg x] => assembleRow 23 (.xSub x)
  | .sknp, [.reg x] => assembleRow 24 (.xSub x)
  | .ld, [.reg x, .dt] => assembleRow 25 (.xSub x)
  | .ld, [.reg x, .k] => assembleRow 26 (.xSub x)
  | .ld, [.dt, .reg x] => assembleRow 27 (.xSub x)
  | .ld, [.st, .reg x] => assembleRow 28 (.xSub x)
  | .add, [.i, .reg x] => assembleRow 29 (.xSub x)
  | .ld, [.f, .reg x] => assembleRow 30 (.xSub x)
  | .ld, [.b, .reg x] => assembleRow 31 (.xSub x)
  | .ld, [.atI, .reg x] => assembleRow 32 (.xSub x)
  | .ld, [.reg x, .atI] => assembleRow 33 (.xSub x)
  | _, _ => none

/-! ### Listings (R82) -/

/-- An item of a listing: the two directives, a label, an instruction line (R82). -/
inductive Item where
  /-- `.org a` -/
  | org (a : Nat)
  /-- `name:` -/
  | label (name : String)
  /-- `.byte b, ...` -/
  | byte (bs : List Nat)
  | line (word : AsmWord) (args : List Arg)
deriving DecidableEq, Repr

/-- The address of the item after this one. -/
def Item.after (a : Nat) : Item → Nat
  | .org a' => a'
  | .label _ => a
  | .byte bs => a + bs.length
  | .line _ _ => a + 2

/-- What each label stands for: the address of the next item (R82). That an `.org` directly after a label does not count as that
item, so that the label stands for the address before it, is the model's choice (DESIGN CHOICE, log 31). -/
def labels : Nat → List Item → List (String × Nat)
  | _, [] => []
  | a, .label name :: items => (name, a) :: labels a items
  | a, item :: items => labels (item.after a) items

/-- An operand with its label replaced by the address; an undefined label is an error. R81 names a label in the place of `nnn`;
that one in the place of `nn` or `n` is taken too, where its address is in the operand's range, is the model's choice (DESIGN
CHOICE, log 31). -/
def Arg.resolve (table : List (String × Nat)) : Arg → Option Arg
  | .label name => (table.lookup name).map .num
  | arg => some arg

/-- The bytes an item places: `word[15:8]` then `word[7:0]` of a line (R83), the literal bytes of `.byte`. -/
def Item.bytes (table : List (String × Nat)) : Item → Option (List Byte)
  | .org _ => some []
  | .label _ => some []
  | .byte bs => if bs.all (· < 256) then some (bs.map (BitVec.ofNat 8)) else none
  | .line word args => do
    let args ← args.mapM (Arg.resolve table)
    let w ← assembleLine word args
    some [hiByte w, loByte w]

/-- Bytes put into an image at an offset, with zeros up to it. -/
def putBytes (image : List Byte) (offset : Nat) (bs : List Byte) : List Byte :=
  (image ++ List.replicate (offset - image.length) 0#8).take offset ++ bs ++ image.drop (offset + bs.length)

/-- The items placed one after another from address `a` on into an image that starts at 0x200. R82 gives a listing no bounds.
The model's choices (DESIGN CHOICE, log 31): a byte below 0x200 is an error; there is no upper bound, so that items at 0x1000 or
beyond give an image longer than 3584 bytes, which only `load` turns away (40_step_cycle.md R91). -/
def placeItems (table : List (String × Nat)) : Nat → List Item → List Byte → Option (List Byte)
  | _, [], image => some image
  | a, item :: items, image => do
    let bs ← item.bytes table
    if bs = [] then placeItems table (item.after a) items image
    else if a < 0x200 then none
    else placeItems table (item.after a) items (putBytes image (a - 0x200) bs)

/-- The image of a listing: "programs start at `.org 0x200`" (R82). That a listing with no `.org` of its own starts there too, and
that an `.org` with no byte after it does not lengthen the image, are the model's choices (DESIGN CHOICE, log 31). -/
def assembleListing (items : List Item) : Option (List Byte) := placeItems (labels 0x200 items) 0x200 items []

/-! ### Disassembly (R84) -/

/-- A disassembled word: a line of R81, or `.byte hi, lo`. -/
inductive Disassembly where
  | line (word : AsmWord) (args : List Arg)
  | byte (hi lo : Byte)
deriving DecidableEq, Repr

/-- `Vx` -/
def regArg (x : Nibble) : Arg := .reg x.toNat

/-- The line of an instruction (R81). A shift with Y not 0 has the two-operand form (R84). -/
def lineOf : Instr → AsmWord × List Arg
  | .cls => (.cls, [])
  | .ret => (.ret, [])
  | .jp nnn => (.jp, [.num nnn.toNat])
  | .call nnn => (.call, [.num nnn.toNat])
  | .seI x nn => (.se, [regArg x, .num nn.toNat])
  | .sneI x nn => (.sne, [regArg x, .num nn.toNat])
  | .seR x y => (.se, [regArg x, regArg y])
  | .ldI x nn => (.ld, [regArg x, .num nn.toNat])
  | .addI x nn => (.add, [regArg x, .num nn.toNat])
  | .ldR x y => (.ld, [regArg x, regArg y])
  | .orR x y => (.or, [regArg x, regArg y])
  | .andR x y => (.and, [regArg x, regArg y])
  | .xorR x y => (.xor, [regArg x, regArg y])
  | .addR x y => (.add, [regArg x, regArg y])
  | .sub x y => (.sub, [regArg x, regArg y])
  | .shr x y => (.shr, if y = 0#4 then [regArg x] else [regArg x, regArg y])
  | .subn x y => (.subn, [regArg x, regArg y])
  | .shl x y => (.shl, if y = 0#4 then [regArg x] else [regArg x, regArg y])
  | .sneR x y => (.sne, [regArg x, regArg y])
  | .ldIdx nnn => (.ld, [.i, .num nnn.toNat])
  | .jpV0 nnn => (.jp, [.reg 0, .num nnn.toNat])
  | .rnd x nn => (.rnd, [regArg x, .num nn.toNat])
  | .drw x y n => (.drw, [regArg x, regArg y, .num n.toNat])
  | .skp x => (.skp, [regArg x])
  | .sknp x => (.sknp, [regArg x])
  | .ldFromDt x => (.ld, [regArg x, .dt])
  | .ldKey x => (.ld, [regArg x, .k])
  | .ldToDt x => (.ld, [.dt, regArg x])
  | .ldToSt x => (.ld, [.st, regArg x])
  | .addIdx x => (.add, [.i, regArg x])
  | .ldFont x => (.ld, [.f, regArg x])
  | .ldBcd x => (.ld, [.b, regArg x])
  | .stRegs x => (.ld, [.atI, regArg x])
  | .ldRegs x => (.ld, [regArg x, .atI])

/-- Disassembly of any word (R84). -/
def disassemble (w : Word) : Disassembly :=
  match decode w with
  | .instr i => .line (lineOf i).1 (lineOf i).2
  | .unknown u => .byte (hiByte u) (loByte u)

/-- The word a disassembly assembles to. -/
def Disassembly.assembled : Disassembly → Option Word
  | .line word args => assembleLine word args
  | .byte hi lo => some (wordOfBytes hi lo)

end Sys2Proof
end

