-- ==== Sys2Proof/Machine/Trace.lean ====
section
/-! DEFINITION. The optional trace (60_exceptions.md R221): an output, not state; no rule reads it (D27, log 23). -/

namespace Sys2Proof.Machine

/-- The record `{pc_before, raw_word, mnemonic, operands}` (R221). That an unknown word has no mnemonic is the model's choice,
R221 being silent there (log 23). -/
structure TraceRecord where
  pcBefore : Word
  rawWord : Word
  mnemonic : Option String
  operands : Fields
deriving DecidableEq, Repr

/-- The mnemonic of a decoded word: that of the opcode table, suffix included, by the model's choice (R81, D22, U3, log 23). -/
def decodedMnemonic : Decoded → Option String
  | .instr i => some (mnemonicOf i)
  | .unknown _ => none

/-- What the step taken in `s` would emit (R221): a record exactly when it runs and fetches a word, known or unknown; a
blocked, resolving or halted step emits none, nor does one that is refused. -/
def traceOf (s : State) : Option TraceRecord :=
  match s.launched with
  | false => none
  | true =>
    match s.mode with
    | .halted => none
    | .awaitingKey => none
    | .running =>
      match s.fetch with
      | .error _ => none
      | .ok w => some { pcBefore := s.pc, rawWord := w, mnemonic := decodedMnemonic (decode w), operands := fieldsOf w }

end Sys2Proof.Machine
end

