-- ==== Sys2Proof/Machine/Transactions.lean ====
section
/-! DEFINITION. The host's transactions (40_step_cycle.md R90 to R105): `load`, `tick_timers`, `set_key`, `display`, beside
`step`; the outputs a host reads (10_state.md R41); and a host's schedule as a list of transactions (D26, log 8). Each is
atomic, and they are totally ordered (00_scope.md R11). -/

namespace Sys2Proof.Machine

/-- The result of `load` (R91). -/
inductive LoadResult where
  | ok
  | romTooLarge
deriving DecidableEq, Repr

/-- The number of a load error, where one is needed (60_exceptions.md R208). -/
def LoadResult.code : LoadResult → Option Nat
  | .ok => none
  | .romTooLarge => some 5

/-- The result of `tick_timers` (R102). -/
inductive SoundEdge where
  | none
  | started
  | stopped
deriving DecidableEq, Repr

/-- The state after a successful `load` (R42): every piece of state at its reset value, the font and the image in memory. The
machine's FONT is a parameter and stays (log 1); the count of random draws goes on, so that a draw after a `load` is not tied
to one before it (log 2). -/
def State.loaded (s : State) (bytes : List Byte) : State :=
  { State.reset with mem := Memory.ofImage s.font 0x200 bytes, font := s.font, draws := s.draws }

/-- `load(bytes)` (R91): an image of more than 4096 - 0x200 = 3584 bytes fails and changes nothing (D18); any other length
succeeds (D34). It works in every mode and is the only reset (70_reset_and_hazards.md R230, R235). -/
def load (bytes : List Byte) (s : State) : LoadResult × State :=
  if bytes.length > 4096 - 0x200 then (.romTooLarge, s) else (.ok, s.loaded bytes)

/-- A timer after one tick: decremented by 1 when above 0, never below (R101). -/
def tickDown (t : Byte) : Byte := if t = 0#8 then 0#8 else t - 1#8

/-- The report of a tick (R102): `Stopped` if the sound was on, by the last report or by the timer before, and is off;
`Started` if it was not reported on and is on. -/
def soundEdge (sndRep onBefore onAfter : Bool) : SoundEdge :=
  if (sndRep || onBefore) && !onAfter then .stopped else if !sndRep && onAfter then .started else .none

/-- `sound_requested = (ST > 0)` (10_state.md R32, R41). -/
def State.soundRequested (s : State) : Bool := decide (s.st.toNat > 0)

/-- `tick_timers()` (R101, R102): both timers, independently, in every mode; then the report and `SND_REP`. -/
def tickTimers (s : State) : SoundEdge × State :=
  let t := { s with dt := tickDown s.dt, st := tickDown s.st }
  (soundEdge s.sndRep s.soundRequested t.soundRequested, { t with sndRep := t.soundRequested })

/-- `set_key(k)` (R103). A code outside 0..15 cannot be expressed (D30, log 33). -/
def setKey (k : Option Nibble) (s : State) : State := { s with key := k }

/-- `display()` (R104). -/
def display (s : State) : FrameBuffer := s.fb

/-- What the host may ask for (R90). -/
inductive Transaction where
  | load (bytes : List Byte)
  | step
  | tickTimers
  | setKey (k : Option Nibble)
  | display
deriving DecidableEq, Repr

/-- What a transaction returns (R90). -/
inductive Reply where
  | load (r : LoadResult)
  | step (r : StepOutcome)
  | tickTimers (r : SoundEdge)
  | setKey
  | display (fb : FrameBuffer)
deriving DecidableEq, Repr

/-- One transaction, whole, and its reply (R11, R90). -/
def transact (t : Transaction) (s : State) : Host.Outcome (Reply × State) Fault Refusal :=
  match t with
  | .load bytes => .next (.load (load bytes s).1, (load bytes s).2)
  | .step =>
    match step s with
    | .next s' => .next (.step s'.outcome, s')
    | .fault r => .fault r
    | .refused r => .refused r
  | .tickTimers => .next (.tickTimers (tickTimers s).1, (tickTimers s).2)
  | .setKey k => .next (.setKey, setKey k s)
  | .display => .next (.display (display s), s)

/-- A host's schedule, one transaction after another, with the replies in order (R90, R105, D26). -/
def runSchedule : List Transaction → State → Host.Outcome (List Reply × State) Fault Refusal
  | [], s => .next ([], s)
  | t :: ts, s =>
    match transact t s with
    | .next (r, s') =>
      match runSchedule ts s' with
      | .next (rs, s'') => .next (r :: rs, s'')
      | .fault e => .fault e
      | .refused e => .refused e
    | .fault e => .fault e
    | .refused e => .refused e

end Sys2Proof.Machine
end

