-- ==== Sys2Proof/Safety.lean ====
section
/-! DEFINITION. The vocabulary of claims: the invariant of the reachable states (10_state.md R44), frames in terms of the access
table R43, launch states (70_reset_and_hazards.md R233) and finished states. -/

namespace Sys2Proof.Machine

/-- The invariants of R44, with what they rest on: memory in canonical form (log 28) and every stack entry at most 0x1000
(41_flow.md R111). The ranges of `V`, `DT`, `ST`, `KEY` and `SP` are the types' own; `SP` is stated for the reader. -/
structure Inv (s : State) : Prop where
  memory : s.mem.wf s.font = true
  index : s.i.toNat ≤ 0xFFF
  counter : s.pc.toNat ≤ 0x10FE
  entries : ∀ j : Fin 16, s.stk[j].toNat ≤ 0x1000
  depth : s.sp.val ≤ 16
  record : s.fault = none ↔ s.mode ≠ .halted

/-- The kinds of state a frame speaks of: the rows of R43, and the model's own draw counter, font and launch mark. -/
inductive Part where
  | regs | index | stack | mem | display | delay | sound | key | mode | wait | fault | report | draws | font | launched
deriving DecidableEq, Repr

/-- That one kind of state is the same in both states; registers and memory are compared by reading them. -/
def SamePart (p : Part) (s t : State) : Prop :=
  match p with
  | .regs => ∀ r, t.getV r = s.getV r
  | .index => t.i = s.i
  | .stack => t.stk = s.stk ∧ t.sp = s.sp
  | .mem => ∀ a, t.byteAt a = s.byteAt a
  | .display => t.fb = s.fb
  | .delay => t.dt = s.dt
  | .sound => t.st = s.st
  | .key => t.key = s.key
  | .mode => t.mode = s.mode
  | .wait => t.wx = s.wx
  | .fault => t.fault = s.fault
  | .report => t.sndRep = s.sndRep
  | .draws => t.draws = s.draws
  | .font => t.font = s.font
  | .launched => t.launched = s.launched

/-- Everything but the listed kinds of state is the same (`pc` and the outcome are stated on their own). -/
def Frame (changed : List Part) (s t : State) : Prop := ∀ p, p ∉ changed → SamePart p s t

/-- Every register but the listed ones is the same. -/
def OnlyRegs (rs : List Nibble) (s t : State) : Prop := ∀ r, r ∉ rs → t.getV r = s.getV r

/-- Every byte of memory outside `lo .. lo+len-1` is the same. -/
def OnlyBytes (lo len : Nat) (s t : State) : Prop := ∀ a, ¬(lo ≤ a ∧ a < lo + len) → t.byteAt a = s.byteAt a

/-- The instruction went on to the next one: `pc` advanced by 2, outcome `Ok`. -/
def Advanced (s t : State) : Prop := t.pc = s.pc + 2#16 ∧ t.outcome = .ok

/-- An instruction that writes registers only: those listed, nothing else, and the next instruction follows. -/
def WritesRegs (rs : List Nibble) (s t : State) : Prop := Advanced s t ∧ OnlyRegs rs s t ∧ Frame [.regs] s t

/-- The fault `f` was taken in `s` (60_exceptions.md R206): no field differs but `MODE`, `FAULT` and the outcome. -/
def FaultTaken (f : FaultRecord) (s t : State) : Prop :=
  t.mode = .halted ∧ t.fault = some f ∧ t.outcome = .fault f ∧
    t = { s with mode := t.mode, fault := t.fault, outcome := t.outcome }

/-- A word and an instruction stand for each other. -/
def Encodes (i : Instr) (w : Word) : Prop := encode i = w ∧ decode w = .instr i

/-- `match | X<<8 | Y<<4 | N` (30_encoding.md R83). -/
def xynWord (fixed : Word) (x y n : Nibble) : Word :=
  fixed ||| (x.setWidth 16 <<< 8) ||| (y.setWidth 16 <<< 4) ||| n.setWidth 16

/-- `match | X<<8 | NN` (R83). -/
def xImmWord (fixed : Word) (x : Nibble) (nn : Byte) : Word := fixed ||| (x.setWidth 16 <<< 8) ||| nn.setWidth 16

/-- `match | NNN` (R83). -/
def addrWord (fixed : Word) (nnn : Addr12) : Word := fixed ||| nnn.setWidth 16

/-- What an instruction may write, by the table R43 ("an instruction changes no state beyond its row here and `pc`"). -/
def mayWrite : Instr → List Part
  | .cls => [.display]
  | .ret => [.stack]
  | .jp _ => []
  | .call _ => [.stack]
  | .seI _ _ => []
  | .sneI _ _ => []
  | .seR _ _ => []
  | .ldI _ _ => [.regs]
  | .addI _ _ => [.regs]
  | .ldR _ _ => [.regs]
  | .orR _ _ => [.regs]
  | .andR _ _ => [.regs]
  | .xorR _ _ => [.regs]
  | .addR _ _ => [.regs]
  | .sub _ _ => [.regs]
  | .shr _ _ => [.regs]
  | .subn _ _ => [.regs]
  | .shl _ _ => [.regs]
  | .sneR _ _ => []
  | .ldIdx _ => [.index]
  | .jpV0 _ => []
  | .rnd _ _ => [.regs, .draws]
  | .drw _ _ _ => [.display, .regs]
  | .skp _ => []
  | .sknp _ => []
  | .ldFromDt _ => [.regs]
  | .ldKey _ => [.mode, .wait]
  | .ldToDt _ => [.delay]
  | .ldToSt _ => [.sound]
  | .addIdx _ => [.index]
  | .ldFont _ => [.index]
  | .ldBcd _ => [.mem]
  | .stRegs _ => [.mem]
  | .ldRegs _ => [.regs]

/-- The ordinary destination registers, the row `V[X]` of R43. -/
def destRegs : Instr → List Nibble
  | .ldI x _ | .addI x _ | .ldR x _ | .orR x _ | .andR x _ | .xorR x _ | .addR x _ | .sub x _ | .shr x _ | .subn x _ | .shl x _
  | .rnd x _ | .ldFromDt x => [x]
  | .ldRegs x => (List.range (rangeCount x)).map (BitVec.ofNat 4)
  | .cls | .ret | .jp _ | .call _ | .seI _ _ | .sneI _ _ | .seR _ _ | .sneR _ _ | .ldIdx _ | .jpV0 _ | .drw _ _ _ | .skp _
  | .sknp _ | .ldKey _ | .ldToDt _ | .ldToSt _ | .addIdx _ | .ldFont _ | .ldBcd _ | .stRegs _ => []

/-- How many bytes an instruction stores, from the base of its data range on (the row `MEM` of R43, with the lengths of
44_index_memory.md R154 and R155). -/
def bytesStored : Instr → Nat
  | .ldBcd _ => 3
  | .stRegs x => rangeCount x
  | .cls | .ret | .jp _ | .call _ | .seI _ _ | .sneI _ _ | .seR _ _ | .sneR _ _ | .ldIdx _ | .jpV0 _ | .drw _ _ _ | .skp _
  | .sknp _ | .ldKey _ | .ldToDt _ | .ldToSt _ | .addIdx _ | .ldFont _ | .ldI _ _ | .addI _ _ | .ldR _ _ | .orR _ _
  | .andR _ _ | .xorR _ _ | .addR _ _ | .sub _ _ | .shr _ _ | .subn _ _ | .shl _ _ | .rnd _ _ | .ldFromDt _ | .ldRegs _ => 0

/-- The instructions that write `pc` beside the advance: 00EE, 1NNN, 2NNN, BNNN and the six skips (the row `pc` of R43). -/
def writesPc : Instr → Bool
  | .ret | .jp _ | .call _ | .jpV0 _ | .seI _ _ | .sneI _ _ | .seR _ _ | .sneR _ _ | .skp _ | .sknp _ => true
  | .cls | .ldIdx _ | .drw _ _ _ | .ldKey _ | .ldToDt _ | .ldToSt _ | .addIdx _ | .ldFont _ | .ldI _ _ | .addI _ _ | .ldR _ _
  | .orR _ _ | .andR _ _ | .xorR _ _ | .addR _ _ | .sub _ _ | .shr _ _ | .subn _ _ | .shl _ _ | .rnd _ _ | .ldFromDt _
  | .ldBcd _ | .stRegs _ | .ldRegs _ => false

/-- The instructions that write VF as a flag (10_state.md R22, the row `V[15]` of R43). -/
def writesFlag : Instr → Bool
  | .addR _ _ | .sub _ _ | .shr _ _ | .subn _ _ | .shl _ _ | .drw _ _ _ => true
  | .cls | .ret | .jp _ | .call _ | .seI _ _ | .sneI _ _ | .seR _ _ | .ldI _ _ | .addI _ _ | .ldR _ _ | .orR _ _ | .andR _ _
  | .xorR _ _ | .sneR _ _ | .ldIdx _ | .jpV0 _ | .rnd _ _ | .skp _ | .sknp _ | .ldFromDt _ | .ldKey _ | .ldToDt _ | .ldToSt _
  | .addIdx _ | .ldFont _ | .ldBcd _ | .stRegs _ | .ldRegs _ => false

/-- Every register an instruction may write: its destinations, and VF where it writes a flag (R43). -/
def regsWritten (i : Instr) : List Nibble := if writesFlag i then 0xF#4 :: destRegs i else destRegs i

/-- The instruction has VF as an ordinary destination (R22). -/
def vfIsDestination (i : Instr) : Bool := decide (0xF#4 ∈ destRegs i)

/-- The fault an instruction raises in a state whose `pc` is its address, by the table R210 of 60_exceptions.md; every
instruction not listed there can raise nothing. -/
def raises (i : Instr) (s : State) : Option FaultRecord :=
  match i with
  | .ret => if s.sp.val = 0 then some (.stackUnderflow s.pc) else none
  | .call _ => if s.sp.val = 16 then some (.stackOverflow s.pc) else none
  | .drw _ _ n => if 0 < n.toNat ∧ s.i.toNat + n.toNat > 4096 then some (.addressOutOfRange 0x1000#16 s.pc) else none
  | .ldBcd _ => if s.i.toNat + 3 > 4096 then some (.addressOutOfRange 0x1000#16 s.pc) else none
  | .stRegs x => if s.i.toNat + x.toNat + 1 > 4096 then some (.addressOutOfRange 0x1000#16 s.pc) else none
  | .ldRegs x => if s.i.toNat + x.toNat + 1 > 4096 then some (.addressOutOfRange 0x1000#16 s.pc) else none
  | .cls => none
  | .jp _ => none
  | .seI _ _ => none
  | .sneI _ _ => none
  | .seR _ _ => none
  | .ldI _ _ => none
  | .addI _ _ => none
  | .ldR _ _ => none
  | .orR _ _ => none
  | .andR _ _ => none
  | .xorR _ _ => none
  | .addR _ _ => none
  | .sub _ _ => none
  | .shr _ _ => none
  | .subn _ _ => none
  | .shl _ _ => none
  | .sneR _ _ => none
  | .ldIdx _ => none
  | .jpV0 _ => none
  | .rnd _ _ => none
  | .skp _ => none
  | .sknp _ => none
  | .ldFromDt _ => none
  | .ldKey _ => none
  | .ldToDt _ => none
  | .ldToSt _ => none
  | .addIdx _ => none
  | .ldFont _ => none

/-- A launch state: one that a successful `load` leaves (70_reset_and_hazards.md R233). -/
def Launch (s : State) : Prop := ∃ (s0 : State) (bytes : List Byte), load bytes s0 = (.ok, s)

/-- A finished program (70_reset_and_hazards.md R245, D28, log 24): running at a `1NNN` whose target is its own address. -/
def State.finished (s : State) : Bool :=
  match s.mode, s.fetch with
  | .running, .ok w => decide (decode w = .instr (.jp (s.pc.setWidth 12)) ∧ s.pc.toNat < 4096)
  | .running, .error _ => false
  | .awaitingKey, _ => false
  | .halted, _ => false

/-- `k` ticks with nothing between them. -/
def ticks : Nat → State → State
  | 0, s => s
  | k + 1, s => ticks k (tickTimers s).2

/-- `k` steps with no other transaction between them. -/
def steps : Nat → State → StepResult
  | 0, s => .next s
  | k + 1, s =>
    match step s with
    | .next t => steps k t
    | .fault e => .fault e
    | .refused e => .refused e

/-- Calls one after another, each taken where the one before it went (41_flow.md R113). -/
def callAll : List Addr12 → State → StepResult
  | [], s => .next s
  | a :: as, s =>
    match exec (.call a) s with
    | .next t => callAll as t
    | .fault e => .fault e
    | .refused e => .refused e

/-- A transaction other than `load`, the only one that leaves `Halted` (60_exceptions.md R213). -/
def Transaction.isLoad : Transaction → Bool
  | .load _ => true
  | .step => false
  | .tickTimers => false
  | .setKey _ => false
  | .display => false

end Sys2Proof.Machine
end

