-- ==== Sys2Proof/Certificates/Slice0/Obligations.lean ====
section
/-! DEFINITION. The statements for the provers. A clause that rests on a choice names the decision of
spec/92_eei_decisions.md and the log entry in its docstring. -/

open Sys2Proof Sys2Proof.Machine

/-- Words written out nibble by nibble from the patterns of R74, one or more of every family (flow, skips, ALU, index
and memory, display, keypad, timers), decode to the instruction and operands the pattern gives, and two words that
no pattern matches are rejected. -/
def Obligations.SampleWordsDecode : Prop :=
  decode 0x00E0#16 = .instr .cls ∧ decode 0x00EE#16 = .instr .ret ∧ decode 0x2ABC#16 = .instr (.call 0xABC#12) ∧
  decode 0x3142#16 = .instr (.seI 0x1#4 0x42#8) ∧ decode 0x9340#16 = .instr (.sneR 0x3#4 0x4#4) ∧
  decode 0x83A4#16 = .instr (.addR 0x3#4 0xA#4) ∧ decode 0x801E#16 = .instr (.shl 0x0#4 0x1#4) ∧
  decode 0xF255#16 = .instr (.stRegs 0x2#4) ∧ decode 0xD123#16 = .instr (.drw 0x1#4 0x2#4 0x3#4) ∧
  decode 0xE3A1#16 = .instr (.sknp 0x3#4) ∧ decode 0xF10A#16 = .instr (.ldKey 0x1#4) ∧
  decode 0xF018#16 = .instr (.ldToSt 0x0#4) ∧ decode 0x5011#16 = .unknown 0x5011#16 ∧
  decode 0xF166#16 = .unknown 0xF166#16

/-- For every instruction of the 34, with every operand at every value its field admits, decoding its encoded word
gives exactly that instruction, and decoding its two bytes followed by any bytes gives the instruction and hands
back the rest. The instructions are terms of Instr; that the terms of Instr keep the ignored Y of 8XY6 and 8XYE is
the model's choice (log 25), Y being ignored by the spec's decision D29. -/
def Obligations.DecodeOfEncodeIsIdentity : Prop :=
  ∀ (i : Instr) (rest : List Byte),
    i.wellFormed = true →
      decode (encode i) = .instr i ∧ decodeBytes (encodeBytes i ++ rest) = some (.instr i, rest)

/-- If a 16-bit word decodes to an instruction, encoding the instruction restores the word, the ignored Y field of 8XY6
and 8XYE included; so no two words decode to the same term of Instr. As instructions of the spec the sixteen words
of 8XY6, and of 8XYE, that differ in Y are one (R79): that the terms of Instr keep the ignored Y of 8XY6 and 8XYE
is the model's choice (log 25), Y being ignored by the spec's decision D29. -/
def Obligations.EncodeOfDecodeIsIdentity : Prop :=
  ∀ (w : Word) (i : Instr), decode w = .instr i → encode i = w

/-- For every 16-bit word: if the decoder answers an instruction, the word masked with the mask of that instruction's
row of R74 is the row's match; if it answers unknown, it reports the word itself and the word selects no row of the
table. The exact matching of literal nibbles is the spec's decision D7 (log 10). -/
def Obligations.DecoderFollowsOpcodeTable : Prop :=
  ∀ w : Word,
    (∀ i, decode w = .instr i → ∃ r, rows[rowIndex i]? = some r ∧ w &&& r.mask = r.fixed) ∧
    (∀ u, decode w = .unknown u → u = w ∧ ∀ r ∈ rows, w &&& r.mask ≠ r.fixed)

/-- The opcode table has 34 rows; no 16-bit word selects two of them, so the order of trying them does not matter; and
the decoder is total: every word is an instruction or unknown. -/
def Obligations.OpcodeRowsAreDisjoint : Prop :=
  rows.length = 34 ∧
  (∀ (w : Word) (j k : Nat) (rj rk : Row), rows[j]? = some rj → rows[k]? = some rk →
    w &&& rj.mask = rj.fixed → w &&& rk.mask = rk.fixed → j = k) ∧
  (∀ w : Word, (∃ i, decode w = .instr i) ∨ decode w = .unknown w)

/-- A word is unknown exactly when it is 0NNN other than 00E0 and 00EE, 5XYN or 9XYN with N not 0, 8XYN with N in 8..D
or F, EXNN with NN neither 9E nor A1, or FXNN with NN none of the nine listed. The exact matching of literal
nibbles is the spec's decision D7 (log 10). -/
def Obligations.UnknownWordClasses : Prop :=
  ∀ w : Word, decode w = .unknown w ↔
    (w.toNat / 4096 = 0 ∧ w.toNat ≠ 0x00E0 ∧ w.toNat ≠ 0x00EE) ∨
    (w.toNat / 4096 = 5 ∧ w.toNat % 16 ≠ 0) ∨
    (w.toNat / 4096 = 8 ∧ w.toNat % 16 ∈ [0x8, 0x9, 0xA, 0xB, 0xC, 0xD, 0xF]) ∨
    (w.toNat / 4096 = 9 ∧ w.toNat % 16 ≠ 0) ∨
    (w.toNat / 4096 = 0xE ∧ w.toNat % 256 ∉ [0x9E, 0xA1]) ∨
    (w.toNat / 4096 = 0xF ∧ w.toNat % 256 ∉ [0x07, 0x0A, 0x15, 0x18, 0x1E, 0x29, 0x33, 0x55, 0x65])

/-- For every row of the table: assembling operands that are out of range is an error; if assembly gives a word, the
word decodes to an instruction of that row whose operands are the ones written (a shift written with one operand
has Y = 0); and assembling the operands of any instruction under its row gives its encoded word. The ranges of
written operands and the one-operand shift are the notation of R81, the spec's decision D22 (log 31); that the
terms of Instr keep the ignored Y of 8XY6 and 8XYE is the model's choice (log 25), Y being ignored by the spec's
decision D29. -/
def Obligations.AssembledWordDecodesToItsOperands : Prop :=
  (∀ r ∈ rows, ∀ ops : Operands, ops.wellFormed = false → assemble r ops = none) ∧
  (∀ r ∈ rows, ∀ (ops : Operands) (w : Word), assemble r ops = some w →
    ∃ i, decode w = .instr i ∧ rows[rowIndex i]? = some r ∧
      (i.operands = ops ∨ ∃ x, ops = .xSub x ∧ i.operands = .xy x 0)) ∧
  (∀ i : Instr, ∃ r, rows[rowIndex i]? = some r ∧ assemble r i.operands = some (encode i))

/-- For every state whose pc is at most 0xFFE, of either parity, the fetch succeeds and the word is 256 times the byte
at pc plus the byte at pc + 1. -/
def Obligations.FetchIsBigEndian : Prop :=
  ∀ s : State, s.pc.toNat ≤ 0xFFE →
    ∃ w, s.fetch = .ok w ∧ w.toNat = (s.byteAt s.pc.toNat).toNat * 256 + (s.byteAt (s.pc.toNat + 1)).toNat

/-- In a loaded machine in mode Running with pc > 0xFFE a step takes the fault AddressOutOfRange(max(pc, 4096), pc):
mode Halted, the record, the outcome, and no other field of the state differs. The name and the record are the
spec's decision D2 (log 9), the commitment of nothing D4 (log 5). -/
def Obligations.FetchBeyondMemoryFaults : Prop :=
  ∀ s : State, s.launched = true → s.mode = .running → 0xFFE < s.pc.toNat →
    ∃ t, step s = .next t ∧ FaultTaken (.addressOutOfRange (BitVec.ofNat 16 (max s.pc.toNat 4096)) s.pc) s t

/-- In a loaded machine in mode Running with pc at most 0xFFE, if the two bytes at pc and pc + 1 decode to an
instruction, the step is exactly exec of that instruction on that state. -/
def Obligations.StepRunsDecodedInstruction : Prop :=
  ∀ (s : State) (i : Instr) (rest : List Byte), s.launched = true → s.mode = .running → s.pc.toNat ≤ 0xFFE →
    decodeBytes (s.byteAt s.pc.toNat :: s.byteAt (s.pc.toNat + 1) :: rest) = some (.instr i, rest) →
    step s = exec i s

/-- In a loaded machine in mode Running, if the fetch succeeds with a word that is unknown, the step advances pc by 2,
reports UnknownOpcode with the full word, stays Running and changes nothing else. That the full 16-bit word is
reported, and which words are unknown, is the spec's decision D7 (log 10). -/
def Obligations.UnknownOpcodeOnlyAdvances : Prop :=
  ∀ (s : State) (w : Word), s.launched = true → s.mode = .running → s.fetch = .ok w → decode w = .unknown w →
    ∃ t, step s = .next t ∧ t.pc = s.pc + 2#16 ∧ t.outcome = .unknownOpcode w ∧ t.mode = .running ∧ Frame [] s t

/-- In a loaded machine in mode Halted with a recorded fault, a step returns that fault and changes no state: no fetch,
no pc change. Behaviour while halted is the spec's decision D5 (log 5). -/
def Obligations.HaltedStepRepeatsFault : Prop :=
  ∀ (s : State) (f : FaultRecord), s.launched = true → s.mode = .halted → s.fault = some f →
    ∃ t, step s = .next t ∧ t.outcome = .fault f ∧ t = { s with outcome := t.outcome }

/-- In a loaded machine in mode AwaitingKey: with a latched key k the step writes k, zero-extended, to V[WX], returns
to Running, reports Ok, and moves neither pc nor anything else; with no key it reports Blocked and changes nothing.
The protocol is the spec's decision D9 (log 12). -/
def Obligations.AwaitingStepResolvesOnKey : Prop :=
  ∀ s : State, s.launched = true → s.mode = .awaitingKey →
    (∀ k, s.key = some k → ∃ t, step s = .next t ∧ (t.getV s.wx).toNat = k.toNat ∧ t.mode = .running ∧ t.outcome = .ok ∧
      t.pc = s.pc ∧ OnlyRegs [s.wx] s t ∧ Frame [.regs, .mode] s t) ∧
    (s.key = none → ∃ t, step s = .next t ∧ t.outcome = .blocked ∧ t = { s with outcome := t.outcome })

/-- For every state and operands (X or Y = F included): 6XNN gives V[X] = NN; 7XNN gives V[X] = (V[X] + NN) mod 256
with no flag; 8XY0 gives V[X] = V[Y]. Each is encoded as the rule says, completes with pc + 2 and outcome Ok, and
changes no other register and no other state. -/
def Obligations.ImmediateAndCopyResults : Prop :=
  ∀ (s : State) (x y : Nibble) (nn : Byte),
    (Encodes (.ldI x nn) (xImmWord 0x6000#16 x nn) ∧
      ∃ t, exec (.ldI x nn) s = .next t ∧ t.getV x = nn ∧ WritesRegs [x] s t) ∧
    (Encodes (.addI x nn) (xImmWord 0x7000#16 x nn) ∧
      ∃ t, exec (.addI x nn) s = .next t ∧ (t.getV x).toNat = ((s.getV x).toNat + nn.toNat) % 256 ∧ WritesRegs [x] s t) ∧
    (Encodes (.ldR x y) (xynWord 0x8000#16 x y 0#4) ∧
      ∃ t, exec (.ldR x y) s = .next t ∧ t.getV x = s.getV y ∧ WritesRegs [x] s t)

/-- For every state and operands: 8XY1, 8XY2, 8XY3 leave in V[X], bit by bit, the or, the and, the exclusive or of the
old V[X] and V[Y]; each is encoded as the rule says, completes with pc + 2 and outcome Ok, and changes no other
register (VF included unless X = F) and no other state. -/
def Obligations.LogicResults : Prop :=
  ∀ (s : State) (x y : Nibble),
    (Encodes (.orR x y) (xynWord 0x8001#16 x y 0#4) ∧
      ∃ t, exec (.orR x y) s = .next t ∧
        (∀ k, (t.getV x).getLsbD k = ((s.getV x).getLsbD k || (s.getV y).getLsbD k)) ∧ WritesRegs [x] s t) ∧
    (Encodes (.andR x y) (xynWord 0x8002#16 x y 0#4) ∧
      ∃ t, exec (.andR x y) s = .next t ∧
        (∀ k, (t.getV x).getLsbD k = ((s.getV x).getLsbD k && (s.getV y).getLsbD k)) ∧ WritesRegs [x] s t) ∧
    (Encodes (.xorR x y) (xynWord 0x8003#16 x y 0#4) ∧
      ∃ t, exec (.xorR x y) s = .next t ∧
        (∀ k, (t.getV x).getLsbD k = ((s.getV x).getLsbD k ^^ (s.getV y).getLsbD k)) ∧ WritesRegs [x] s t)

/-- For every state and operands: with sum = V[X] + V[Y], VF ends as 1 if sum > 255 and else 0, also when X = F; V[X]
ends as sum mod 256 when X is not F; nothing else changes. That the flag is written last is the spec's decision D8
(log 11). -/
def Obligations.AddWithCarry : Prop :=
  ∀ (s : State) (x y : Nibble), Encodes (.addR x y) (xynWord 0x8004#16 x y 0#4) ∧
    ∃ t, exec (.addR x y) s = .next t ∧
      (t.getV 0xF#4).toNat = (if (s.getV x).toNat + (s.getV y).toNat > 255 then 1 else 0) ∧
      (x ≠ 0xF#4 → (t.getV x).toNat = ((s.getV x).toNat + (s.getV y).toNat) % 256) ∧ WritesRegs [x, 0xF#4] s t

/-- For every state and operands: 8XY5 computes V[X] - V[Y], 8XY7 computes V[Y] - V[X], modulo 256; VF ends as 1 when
the minuend is at least the subtrahend and else 0, also when X = F; the difference is in V[X] when X is not F;
nothing else changes. Flag last: decision D8 (log 11). -/
def Obligations.SubtractWithNotBorrow : Prop :=
  ∀ (s : State) (x y : Nibble),
    (Encodes (.sub x y) (xynWord 0x8005#16 x y 0#4) ∧
      ∃ t, exec (.sub x y) s = .next t ∧
        (t.getV 0xF#4).toNat = (if (s.getV x).toNat ≥ (s.getV y).toNat then 1 else 0) ∧
        (x ≠ 0xF#4 → (t.getV x).toNat = (256 + (s.getV x).toNat - (s.getV y).toNat) % 256) ∧ WritesRegs [x, 0xF#4] s t) ∧
    (Encodes (.subn x y) (xynWord 0x8007#16 x y 0#4) ∧
      ∃ t, exec (.subn x y) s = .next t ∧
        (t.getV 0xF#4).toNat = (if (s.getV y).toNat ≥ (s.getV x).toNat then 1 else 0) ∧
        (x ≠ 0xF#4 → (t.getV x).toNat = (256 + (s.getV y).toNat - (s.getV x).toNat) % 256) ∧ WritesRegs [x, 0xF#4] s t)

/-- For every state and operands: 8XY6 halves V[X] and leaves its old bit 0 in VF; 8XYE doubles V[X] modulo 256 and
leaves its old bit 7 in VF; with X = F the flag is what remains; the effect does not depend on Y; nothing else
changes. Flag last: D8 (log 11); Y ignored: D29 (log 25). -/
def Obligations.ShiftsWithBitOut : Prop :=
  ∀ (s : State) (x y : Nibble),
    (Encodes (.shr x y) (xynWord 0x8006#16 x y 0#4) ∧
      ∃ t, exec (.shr x y) s = .next t ∧ (t.getV 0xF#4).toNat = (s.getV x).toNat % 2 ∧
        (x ≠ 0xF#4 → (t.getV x).toNat = (s.getV x).toNat / 2) ∧ WritesRegs [x, 0xF#4] s t ∧
        ∀ y', exec (.shr x y') s = .next t) ∧
    (Encodes (.shl x y) (xynWord 0x800E#16 x y 0#4) ∧
      ∃ t, exec (.shl x y) s = .next t ∧ (t.getV 0xF#4).toNat = (s.getV x).toNat / 128 ∧
        (x ≠ 0xF#4 → (t.getV x).toNat = 2 * (s.getV x).toNat % 256) ∧ WritesRegs [x, 0xF#4] s t ∧
        ∀ y', exec (.shl x y') s = .next t)

/-- For every state and operands: CXNN leaves in V[X] the next draw and-ed with NN, so no bit outside NN is set; the
next execution uses the next draw; pc + 2, outcome Ok, nothing else changes. It holds whatever the draw is:
Config.rnd is a free value, as the spec's decision D11 leaves it (log 2). -/
def Obligations.RandomIsMasked : Prop :=
  ∀ (s : State) (x : Nibble) (nn : Byte), Encodes (.rnd x nn) (xImmWord 0xC000#16 x nn) ∧
    ∃ t, exec (.rnd x nn) s = .next t ∧ t.getV x = Config.rnd s.draws &&& nn ∧ t.getV x &&& ~~~nn = 0#8 ∧
      t.draws = s.draws + 1 ∧ Advanced s t ∧ OnlyRegs [x] s t ∧ Frame [.regs, .draws] s t

/-- For every state and target: 1NNN sets pc to NNN; BNNN sets pc to the plain sum V[0] + NNN, at most 0x10FE, with no
mask; neither can fault, the outcome is Ok and nothing else changes. A target beyond 0xFFE faults only at the next
step: in a loaded machine in mode Running that step takes AddressOutOfRange. That pc is never masked is the spec's
decision D21, the fault's name D2 and what it commits D4 (logs 20, 9, 5). -/
def Obligations.JumpTargets : Prop :=
  ∀ (s : State) (nnn : Addr12),
    (Encodes (.jp nnn) (addrWord 0x1000#16 nnn) ∧
      ∃ t, exec (.jp nnn) s = .next t ∧ t.pc.toNat = nnn.toNat ∧ t.outcome = .ok ∧ Frame [] s t ∧
        (s.launched = true → s.mode = .running → nnn = 0xFFF#12 →
          ∃ u, step t = .next u ∧ FaultTaken (.addressOutOfRange 0x1000#16 0xFFF#16) t u)) ∧
    (Encodes (.jpV0 nnn) (addrWord 0xB000#16 nnn) ∧
      ∃ t, exec (.jpV0 nnn) s = .next t ∧ t.pc.toNat = (s.getV 0x0#4).toNat + nnn.toNat ∧ t.outcome = .ok ∧
        Frame [] s t ∧
        (s.launched = true → s.mode = .running → 0xFFE < t.pc.toNat → ∃ u a, step t = .next u ∧ FaultTaken (.addressOutOfRange a t.pc) t u))

/-- For every state and target: with SP other than 16, STK[SP] becomes the address of the 2NNN plus 2, SP rises by one,
pc becomes NNN, the outcome is Ok and nothing else changes; with SP = 16 the fault StackOverflow(pc0) is taken and
nothing is pushed. The capacity of 16 and what a fault commits are the spec's decisions D20 and D4 (logs 19, 5). -/
def Obligations.CallPushesReturnAddress : Prop :=
  ∀ (s : State) (nnn : Addr12), Encodes (.call nnn) (addrWord 0x2000#16 nnn) ∧
    (s.sp.val ≠ 16 → ∃ t, exec (.call nnn) s = .next t ∧ t.pc.toNat = nnn.toNat ∧ t.outcome = .ok ∧
      t.sp.val = s.sp.val + 1 ∧ (∀ j : Fin 16, t.stk[j] = if j.val = s.sp.val then s.pc + 2#16 else s.stk[j]) ∧
      Frame [.stack] s t) ∧
    (s.sp.val = 16 → ∃ t, exec (.call nnn) s = .next t ∧ FaultTaken (.stackOverflow s.pc) s t)

/-- For every state: with SP not 0, pc becomes the entry STK[SP-1] as it is, SP falls by one, the entries stay, the
outcome is Ok and nothing else changes; with SP = 0 the fault StackUnderflow(pc0) is taken. The stack's shape and
what a fault commits are the spec's decisions D20 and D4 (logs 19, 5). -/
def Obligations.ReturnPopsTop : Prop :=
  ∀ s : State, Encodes .ret 0x00EE#16 ∧
    (s.sp.val ≠ 0 → ∃ t, exec .ret s = .next t ∧ t.sp.val + 1 = s.sp.val ∧ t.stk = s.stk ∧
      (∀ j : Fin 16, j.val + 1 = s.sp.val → t.pc = s.stk[j]) ∧ t.outcome = .ok ∧ Frame [.stack] s t) ∧
    (s.sp.val = 0 → ∃ t, exec .ret s = .next t ∧ FaultTaken (.stackUnderflow s.pc) s t)

/-- For every state and operands: pc becomes the instruction's address plus 4 when V[X] = NN (3XNN), V[X] differs from
NN (4XNN), V[X] = V[Y] (5XY0), V[X] differs from V[Y] (9XY0), and plus 2 otherwise; outcome Ok, no register and no
other state changes; none can fault. -/
def Obligations.RegisterSkips : Prop :=
  ∀ (s : State) (x y : Nibble) (nn : Byte),
    (Encodes (.seI x nn) (xImmWord 0x3000#16 x nn) ∧ ∃ t, exec (.seI x nn) s = .next t ∧
      t.pc = s.pc + (if (s.getV x).toNat = nn.toNat then 4#16 else 2#16) ∧ t.outcome = .ok ∧ Frame [] s t) ∧
    (Encodes (.sneI x nn) (xImmWord 0x4000#16 x nn) ∧ ∃ t, exec (.sneI x nn) s = .next t ∧
      t.pc = s.pc + (if (s.getV x).toNat = nn.toNat then 2#16 else 4#16) ∧ t.outcome = .ok ∧ Frame [] s t) ∧
    (Encodes (.seR x y) (xynWord 0x5000#16 x y 0#4) ∧ ∃ t, exec (.seR x y) s = .next t ∧
      t.pc = s.pc + (if (s.getV x).toNat = (s.getV y).toNat then 4#16 else 2#16) ∧ t.outcome = .ok ∧ Frame [] s t) ∧
    (Encodes (.sneR x y) (xynWord 0x9000#16 x y 0#4) ∧ ∃ t, exec (.sneR x y) s = .next t ∧
      t.pc = s.pc + (if (s.getV x).toNat = (s.getV y).toNat then 2#16 else 4#16) ∧ t.outcome = .ok ∧ Frame [] s t)

/-- For every state and X: the condition is that the latch holds a code k and the whole 8-bit V[X] equals k; EX9E goes
to pc0 + 4 when it holds and pc0 + 2 otherwise, EXA1 the other way round; so with no key EX9E never and EXA1 always
skips, and likewise when V[X] > 15. Outcome Ok, nothing else changes. The comparison is the spec's decision D10
(log 13). -/
def Obligations.KeySkips : Prop :=
  ∀ (s : State) (x : Nibble),
    (Encodes (.skp x) (xImmWord 0xE000#16 x 0x9E#8) ∧ ∃ t, exec (.skp x) s = .next t ∧ t.outcome = .ok ∧ Frame [] s t ∧
      ((∃ k, s.key = some k ∧ (s.getV x).toNat = k.toNat) → t.pc = s.pc + 4#16) ∧
      ((¬∃ k, s.key = some k ∧ (s.getV x).toNat = k.toNat) → t.pc = s.pc + 2#16)) ∧
    (Encodes (.sknp x) (xImmWord 0xE000#16 x 0xA1#8) ∧ ∃ t, exec (.sknp x) s = .next t ∧ t.outcome = .ok ∧ Frame [] s t ∧
      ((∃ k, s.key = some k ∧ (s.getV x).toNat = k.toNat) → t.pc = s.pc + 2#16) ∧
      ((¬∃ k, s.key = some k ∧ (s.getV x).toNat = k.toNat) → t.pc = s.pc + 4#16))

/-- For every state and X: FX0A leaves WX = X, mode AwaitingKey, pc + 2 and outcome Blocked, with V[X] not yet written
and nothing else changed, also when a key is already latched. The protocol is the spec's decision D9 (log 12). -/
def Obligations.KeyWaitEntered : Prop :=
  ∀ (s : State) (x : Nibble), Encodes (.ldKey x) (xImmWord 0xF000#16 x 0x0A#8) ∧
    ∃ t, exec (.ldKey x) s = .next t ∧ t.wx = x ∧ t.mode = .awaitingKey ∧ t.outcome = .blocked ∧
      t.pc = s.pc + 2#16 ∧ Frame [.mode, .wait] s t

/-- For every state and X: FX07 gives V[X] = DT with DT unchanged; FX15 gives DT = V[X]; FX18 gives ST = V[X] with
SND_REP untouched and the sound level ST > 0 changed at once; each advances by 2 with outcome Ok and changes
nothing else; none can fault. -/
def Obligations.TimerTransfers : Prop :=
  ∀ (s : State) (x : Nibble),
    (Encodes (.ldFromDt x) (xImmWord 0xF000#16 x 0x07#8) ∧
      ∃ t, exec (.ldFromDt x) s = .next t ∧ t.getV x = s.dt ∧ WritesRegs [x] s t) ∧
    (Encodes (.ldToDt x) (xImmWord 0xF000#16 x 0x15#8) ∧
      ∃ t, exec (.ldToDt x) s = .next t ∧ t.dt = s.getV x ∧ Advanced s t ∧ Frame [.delay] s t) ∧
    (Encodes (.ldToSt x) (xImmWord 0xF000#16 x 0x18#8) ∧
      ∃ t, exec (.ldToSt x) s = .next t ∧ t.st = s.getV x ∧ (t.soundRequested = true ↔ 0 < (s.getV x).toNat) ∧
        Advanced s t ∧ Frame [.sound] s t)

/-- For every state and operands: ANNN gives I = NNN; FX1E gives I = (I + V[X]) mod 4096, VF untouched also on wrap-
around; each advances by 2 with outcome Ok and changes nothing else; neither can fault. -/
def Obligations.IndexLoadAndAdd : Prop :=
  ∀ (s : State) (x : Nibble) (nnn : Addr12),
    (Encodes (.ldIdx nnn) (addrWord 0xA000#16 nnn) ∧
      ∃ t, exec (.ldIdx nnn) s = .next t ∧ t.i.toNat = nnn.toNat ∧ Advanced s t ∧ Frame [.index] s t) ∧
    (Encodes (.addIdx x) (xImmWord 0xF000#16 x 0x1E#8) ∧
      ∃ t, exec (.addIdx x) s = .next t ∧ t.i.toNat = (s.i.toNat + (s.getV x).toNat) % 4096 ∧ Advanced s t ∧
        Frame [.index] s t)

/-- For every state and X: FX29 gives I = 5 * V[X], at most 0x4FB, with no mask on V[X]; pc + 2, outcome Ok, nothing
else changes. That V[X] is not reduced to its low nibble is the spec's decision D31 (log 26). -/
def Obligations.FontAddress : Prop :=
  ∀ (s : State) (x : Nibble), Encodes (.ldFont x) (xImmWord 0xF000#16 x 0x29#8) ∧
    ∃ t, exec (.ldFont x) s = .next t ∧ t.i.toNat = 5 * (s.getV x).toNat ∧ t.i.toNat ≤ 0x4FB ∧ Advanced s t ∧
      Frame [.index] s t

/-- For every state and X with I + 2 < 4096: the bytes at I, I+1, I+2 become V[X] div 100, (V[X] div 10) mod 10 and
V[X] mod 10; every other byte of memory reads as before; I, the registers and everything else are unchanged; pc +
2, outcome Ok. The check before any store, the store below 0x200 and the unchanged I are decisions D3, D14 and D15
(logs 9, 15, 16). -/
def Obligations.BcdDigitsStored : Prop :=
  ∀ (s : State) (x : Nibble), Encodes (.ldBcd x) (xImmWord 0xF000#16 x 0x33#8) ∧
    (s.i.toNat + 2 < 4096 → ∃ t, exec (.ldBcd x) s = .next t ∧
      (t.byteAt s.i.toNat).toNat = (s.getV x).toNat / 100 ∧
      (t.byteAt (s.i.toNat + 1)).toNat = (s.getV x).toNat / 10 % 10 ∧
      (t.byteAt (s.i.toNat + 2)).toNat = (s.getV x).toNat % 10 ∧
      OnlyBytes s.base 3 s t ∧ Advanced s t ∧ Frame [.mem] s t)

/-- For every state and X with I + X < 4096: the byte at I + k becomes V[k] for every k = 0..X, below 0x200 as well as
above; every other byte of memory reads as before; I, the registers and everything else are unchanged; pc + 2,
outcome Ok. Decisions D3, D14, D15 (logs 9, 15, 16). -/
def Obligations.RegistersStored : Prop :=
  ∀ (s : State) (x : Nibble), Encodes (.stRegs x) (xImmWord 0xF000#16 x 0x55#8) ∧
    (s.i.toNat + x.toNat < 4096 → ∃ t, exec (.stRegs x) s = .next t ∧
      (∀ k : Nibble, k.toNat ≤ x.toNat → t.byteAt (s.i.toNat + k.toNat) = s.getV k) ∧
      OnlyBytes s.base (rangeCount x) s t ∧ Advanced s t ∧ Frame [.mem] s t)

/-- For every state and X with I + X < 4096: V[k] becomes the byte at I + k for every k = 0..X; registers above X keep
their values; memory, I and everything else are unchanged; pc + 2, outcome Ok. Decisions D3, D15 (logs 9, 16). -/
def Obligations.RegistersLoaded : Prop :=
  ∀ (s : State) (x : Nibble), Encodes (.ldRegs x) (xImmWord 0xF000#16 x 0x65#8) ∧
    (s.i.toNat + x.toNat < 4096 → ∃ t, exec (.ldRegs x) s = .next t ∧
      (∀ k : Nibble, k.toNat ≤ x.toNat → t.getV k = s.byteAt (s.i.toNat + k.toNat)) ∧
      (∀ k : Nibble, x.toNat < k.toNat → t.getV k = s.getV k) ∧ Advanced s t ∧ Frame [.regs] s t)

/-- For every state and operands: DXYN with N > 0 and I + N - 1 >= 4096, FX33 with I + 2 >= 4096, FX55 and FX65 with I
+ X >= 4096 take the fault AddressOutOfRange(4096, pc0): no byte is stored, no register loaded, no pixel changed,
VF not written; nothing but mode, fault record and outcome differs. Decisions D2, D3 (log 9), D4 (log 5); that DXYN
with N = 0 is left out here because it cannot fault is D32 (log 26). -/
def Obligations.DataRangeFaults : Prop :=
  ∀ (s : State) (x y n : Nibble),
    (0 < n.toNat → 4096 ≤ s.i.toNat + n.toNat - 1 →
      ∃ t, exec (.drw x y n) s = .next t ∧ FaultTaken (.addressOutOfRange 0x1000#16 s.pc) s t) ∧
    (4096 ≤ s.i.toNat + 2 → ∃ t, exec (.ldBcd x) s = .next t ∧ FaultTaken (.addressOutOfRange 0x1000#16 s.pc) s t) ∧
    (4096 ≤ s.i.toNat + x.toNat →
      (∃ t, exec (.stRegs x) s = .next t ∧ FaultTaken (.addressOutOfRange 0x1000#16 s.pc) s t) ∧
      (∃ t, exec (.ldRegs x) s = .next t ∧ FaultTaken (.addressOutOfRange 0x1000#16 s.pc) s t))

/-- For every state: after 00E0 all 64 x 32 pixels are off whatever they were; VF and everything else are unchanged; pc
+ 2, outcome Ok; it cannot fault. -/
def Obligations.ClearDisplay : Prop :=
  Encodes .cls 0x00E0#16 ∧
  ∀ s : State, ∃ t, exec .cls s = .next t ∧ (∀ px py, pixel t.fb px py = false) ∧ Advanced s t ∧ Frame [.display] s t

/-- For every state and operands whose row range is empty or ends below 4096: a pixel changes exactly when some row r <
N and column c < 8 have bit 7 - c of the byte at I + r set with the pixel at ((V[X] + c) mod 64, (V[Y] + r) mod
32); VF ends as 1 if some such pixel was on and else as 0; no other register, no byte of memory, not I and nothing
else changes; pc + 2, outcome Ok. X or Y = F uses VF as coordinate first. The bit order is the spec's decision D12
(log 3), the check before any effect D3 (log 9), the unchanged I D15 (log 16), N = 0 D32 (log 26). -/
def Obligations.DrawFlipsCoveredPixels : Prop :=
  ∀ (s : State) (x y n : Nibble), Encodes (.drw x y n) (xynWord 0xD000#16 x y n) ∧
    (n = 0#4 ∨ s.i.toNat + n.toNat ≤ 4096 → ∃ t, exec (.drw x y n) s = .next t ∧
      (∀ (px : Fin 64) (py : Fin 32), pixel t.fb px py ≠ pixel s.fb px py ↔
        ∃ r c, r < n.toNat ∧ c < 8 ∧ (s.byteAt (s.i.toNat + r)).getLsbD (7 - c) = true ∧
          px.val = ((s.getV x).toNat + c) % 64 ∧ py.val = ((s.getV y).toNat + r) % 32) ∧
      ((t.getV 0xF#4).toNat = 1 ∧ (∃ px py, pixel s.fb px py = true ∧ pixel t.fb px py = false) ∨
        (t.getV 0xF#4).toNat = 0 ∧ ¬∃ px py, pixel s.fb px py = true ∧ pixel t.fb px py = false) ∧
      OnlyRegs [0xF#4] s t ∧ Advanced s t ∧ Frame [.display, .regs] s t)

/-- For every state and operands with X and Y not F and the row range in bounds, or N = 0 whatever I is, the same DXYN
executed again restores every pixel, and its VF is 1 exactly when the first draw turned some pixel on. (R162 adds
that the second draw reports 1 "if the sprite has any set bit"; by its own pseudocode that holds when a covered
pixel was off before: log 34. The second drawing reads the same bytes because DXYN leaves I unchanged, the spec's
decision D15, log 16; the check of the range is D3, log 9; that N = 0 draws nothing and cannot fault is D32, log
26; X or Y = F is in DrawFlipsCoveredPixels.) -/
def Obligations.DrawTwiceRestores : Prop :=
  ∀ (s : State) (x y n : Nibble), x ≠ 0xF#4 → y ≠ 0xF#4 → n = 0#4 ∨ s.i.toNat + n.toNat ≤ 4096 →
    ∃ t u, exec (.drw x y n) s = .next t ∧ exec (.drw x y n) t = .next u ∧
      (∀ px py, pixel u.fb px py = pixel s.fb px py) ∧
      ((u.getV 0xF#4).toNat = 1 ↔ ∃ px py, pixel s.fb px py = false ∧ pixel t.fb px py = true)

/-- For every state that is not halted: if a step ends in mode Halted, it took a fault f, and no field of the state
differs from before the step but MODE, FAULT = f and the outcome Fault(f); in particular pc is still the address of
the faulting instruction. The spec's decision D4 (log 5). -/
def Obligations.FaultsArePrecise : Prop :=
  ∀ s t : State, s.mode ≠ .halted → step s = .next t → t.mode = .halted → ∃ f, FaultTaken f s t

/-- For every instruction and state: if the table R210 names a fault for the instruction and its condition holds, exec
takes exactly that fault; otherwise exec completes without one: the fault record is untouched and the mode is
unchanged, but for FX0A, which enters AwaitingKey. The record AddressOutOfRange is the spec's decision D2 and its
check before any effect D3 (log 9), what a fault commits D4 (log 5), the stack's capacity D20 (log 19), DXYN with N
= 0 D32 (log 26). -/
def Obligations.OnlyListedInstructionsFault : Prop :=
  ∀ (i : Instr) (s : State),
    (∀ f, raises i s = some f → ∃ t, exec i s = .next t ∧ FaultTaken f s t) ∧
    (raises i s = none → ∃ t, exec i s = .next t ∧ t.fault = s.fault ∧
      (t.mode = s.mode ∨ ∃ x, i = .ldKey x ∧ t.mode = .awaitingKey))

/-- From a halted state of a loaded machine with record f, after any list of transactions that holds no load: the
machine has answered, is still halted with record f, every step among them returned Fault(f), and pc, registers, I,
stack, memory, display, wait latch and draws are unchanged; only the timers, the sound report and the key latch may
have moved. The spec's decision D5 (log 5). -/
def Obligations.HaltedUntilLoad : Prop :=
  ∀ (ts : List Transaction) (s : State) (f : FaultRecord), s.launched = true → s.mode = .halted → s.fault = some f →
    (∀ t ∈ ts, t.isLoad = false) →
    ∃ rs u, runSchedule ts s = .next (rs, u) ∧ u.mode = .halted ∧ u.fault = some f ∧ u.pc = s.pc ∧
      (∀ r, Reply.step r ∈ rs → r = .fault f) ∧ Frame [.delay, .sound, .key, .report] s u

/-- For every font, state and image: of at most 3584 bytes, load answers Ok and leaves pc 0x200, I 0, all registers,
stack entries, SP, timers, wait latch and sound report 0, display clear, no key, mode Running, no fault, and memory
the machine's font, zeros, the image at 0x200 and zeros after it, and the font and the draws go on; of more, it
answers RomTooLarge and the state is unchanged. The font is the parameter held in the state, whatever it is (log
1); the rows beyond the document's list are D13, D17, D18 (logs 14, 18); that every length from 0 to 3584 loads
with zeros after the image is D34 (log 27); that a load keeps the index of the next draw is the model's choice (log
2). -/
def Obligations.LoadResetsEverything : Prop :=
  ∀ (bytes : List Byte) (s : State),
    (bytes.length ≤ 3584 → ∃ t, load bytes s = (.ok, t) ∧ t.pc = 0x200#16 ∧ t.i = 0#16 ∧ (∀ r, t.getV r = 0#8) ∧
      t.sp.val = 0 ∧ (∀ j : Fin 16, t.stk[j] = 0#16) ∧ (∀ px py, pixel t.fb px py = false) ∧ t.dt = 0#8 ∧ t.st = 0#8 ∧
      t.key = none ∧ t.mode = .running ∧ t.wx = 0#4 ∧ t.fault = none ∧ t.sndRep = false ∧
      t.launched = true ∧ t.font = s.font ∧ t.draws = s.draws ∧
      ∀ a, a < 4096 → t.byteAt a =
        if h : a < 80 then s.font[a]
        else if a < 0x200 then 0#8 else if a < 0x200 + bytes.length then bytes.getD (a - 0x200) 0#8 else 0#8) ∧
    (3584 < bytes.length → load bytes s = (.romTooLarge, s))

/-- For every number of ticks k and every state, in any mode: the delay timer and the sound timer are each their old
value minus k, or 0 where that is negative; apart from the sound report no other state, nor pc, has changed. -/
def Obligations.TicksCountDownToZero : Prop :=
  ∀ (k : Nat) (s : State), (ticks k s).dt.toNat = s.dt.toNat - k ∧ (ticks k s).st.toNat = s.st.toNat - k ∧
    (ticks k s).pc = s.pc ∧ (ticks k s).outcome = s.outcome ∧ Frame [.delay, .sound, .report] s (ticks k s)

/-- For every state: a tick reports Stopped exactly when the sound was on, by SND_REP or by ST before, and ST is 0
after; Started exactly when SND_REP was 0 and ST is positive after; SND_REP ends as ST > 0; hence a tick on ST = 1
reports Stopped and leaves ST = 0, and a tick on a silent machine reports None. The formula is the spec's decision
D16 (log 17). -/
def Obligations.SoundEdgeReports : Prop :=
  ∀ s : State,
    ((tickTimers s).1 = .stopped ↔ (s.sndRep = true ∨ 0 < s.st.toNat) ∧ (tickTimers s).2.st = 0#8) ∧
    ((tickTimers s).1 = .started ↔ s.sndRep = false ∧ 0 < (tickTimers s).2.st.toNat) ∧
    ((tickTimers s).2.sndRep = true ↔ 0 < (tickTimers s).2.st.toNat) ∧
    (s.st = 1#8 → (tickTimers s).1 = .stopped ∧ (tickTimers s).2.st = 0#8) ∧
    (s.st = 0#8 → s.sndRep = false → (tickTimers s).1 = .none)

/-- For every state and key value: the transaction set_key leaves the latch holding exactly that value and changes no
other field; the transaction display answers the buffer and leaves the state as it is. -/
def Obligations.KeyAndDisplayTransactions : Prop :=
  ∀ (s : State) (k : Option Nibble),
    (∃ t, transact (.setKey k) s = .next (.setKey, t) ∧ t.key = k ∧ t = { s with key := t.key }) ∧
    transact .display s = .next (.display s.fb, s)

/-- The state after reset satisfies the invariants of R44 (I at most 0xFFF, pc at most 0x10FE, SP at most 16, a fault
record exactly in Halted), with every stack entry at most 0x1000 (R111) and memory in its canonical form, which is
the model's own form (DESIGN CHOICE, log 28). So does the machine as constructed with any font; a step of it is
refused, and a load of the empty image into the one with the default font gives the reset state. The constructed
state and the refusal are the spec's decision D19 (log 7), the values reset gives beyond the document's list D17
(log 18), the stack's shape D20 (log 19), the bound of pc D21 (log 20). -/
def Obligations.InvariantAtReset : Prop :=
  Inv State.reset ∧ load [] (State.constructed defaultFont) = (.ok, State.reset) ∧
  ∀ font : Font, Inv (State.constructed font) ∧ step (State.constructed font) = .refused .stepBeforeLoad

/-- For every state of a loaded machine with the invariants of R44 (I at most 0xFFF, pc at most 0x10FE, SP at most 16,
a fault record exactly in Halted), with stack entries at most 0x1000 (R111) and memory in canonical form, which is
the model's own form (DESIGN CHOICE, log 28), in every mode and whatever word is fetched: the step answers a next
state, and all of this holds in it. That it answers uses the invariant on the record (log 6). A step before the
first load is refused by the spec's decision D19 (log 7); what a fault commits is D4 (log 5), the stack's shape D20
(log 19), the bound of pc D21 (log 20). -/
def Obligations.InvariantKeptByStep : Prop :=
  ∀ s : State, s.launched = true → Inv s → ∃ t, step s = .next t ∧ Inv t

/-- From every state with the invariants, every transaction (a step, a tick, a key change, a display read, a load of
any image) answers a next state with the invariants, except a step of a machine that no load has succeeded on,
which is refused; the machine is loaded after a transaction exactly when it was before or the transaction is a load
of at most 3584 bytes. So from any launch state every finite list of transactions runs to its end, with one reply
each, in a loaded machine with the invariants. They are those of R44, with the stack bound of R111 and the
canonical form of memory, which is the model's own (DESIGN CHOICE, log 28). The free schedule is the spec's
decision D26 (log 8), the refusal before a load D19 (log 7), what a load resets D17 (log 18), what a fault commits
D4 (log 5), the stack's shape D20 (log 19), the bound of pc D21 (log 20). -/
def Obligations.InvariantOnEverySchedule : Prop :=
  (∀ (tr : Transaction) (s : State), Inv s →
    (s.launched = false ∧ tr = .step ∧ transact tr s = .refused .stepBeforeLoad) ∨
    ((s.launched = true ∨ tr ≠ .step) ∧ ∃ r t, transact tr s = .next (r, t) ∧ Inv t ∧
      (t.launched = true ↔ s.launched = true ∨ ∃ bytes, tr = .load bytes ∧ bytes.length ≤ 3584))) ∧
  ∀ (s : State) (ts : List Transaction), Launch s →
    ∃ rs u, runSchedule ts s = .next (rs, u) ∧ rs.length = ts.length ∧ u.launched = true ∧ Inv u

/-- For every instruction and state: when exec gives a next state, either it took a fault and nothing but mode, record
and outcome differs, or all of this holds: every kind of state outside the instruction's rows of the table R43
reads as before (registers, I, stack, memory, display, both timers, key, mode, wait latch, fault record, sound
report; and the model's draws, font and launch mark); every register reads as before but its V[X], or V[0..X] for
FX65, and V[15] where it writes the flag; every byte of memory reads as before but the three of FX33 and the X + 1
of FX55 from I on; and pc is two more than before, but for 00EE, 1NNN, 2NNN, BNNN and the six skips. What a fault
commits is the spec's decision D4 (log 5), that FX33, FX55, FX65 and DXYN leave I unchanged D15 (log 16). -/
def Obligations.AccessTableFrame : Prop :=
  ∀ (i : Instr) (s t : State), exec i s = .next t → (∃ f, FaultTaken f s t) ∨
    (Frame (mayWrite i) s t ∧ OnlyRegs (regsWritten i) s t ∧ OnlyBytes s.base (bytesStored i) s t ∧
      (writesPc i = false → t.pc = s.pc + 2#16))

/-- For every step that answers: the key latch and SND_REP are unchanged; the delay timer is unchanged unless the step
fetched an FX15, and then it is that V[X]; the sound timer is unchanged unless the step fetched an FX18, and then
it is that V[X]. -/
def Obligations.StepNeverTicksOrSetsKey : Prop :=
  ∀ s t : State, step s = .next t → t.key = s.key ∧ t.sndRep = s.sndRep ∧
    (t.dt = s.dt ∨ ∃ w x, s.mode = .running ∧ s.fetch = .ok w ∧ decode w = .instr (.ldToDt x) ∧ t.dt = s.getV x) ∧
    (t.st = s.st ∨ ∃ w x, s.mode = .running ∧ s.fetch = .ok w ∧ decode w = .instr (.ldToSt x) ∧ t.st = s.getV x)

/-- For every instruction that does not fault: 8XY4, 8XY5, 8XY6, 8XY7, 8XYE and DXYN leave 0 or 1 in VF whatever X and
Y are; every other instruction leaves VF as it was unless its X is F and it writes V[X] (FX65 with X = F included).
Flag last: D8 (log 11). -/
def Obligations.FlagRegisterWriters : Prop :=
  ∀ (i : Instr) (s t : State), exec i s = .next t → (∃ f, FaultTaken f s t) ∨
    (writesFlag i = true → t.getV 0xF#4 = 0#8 ∨ t.getV 0xF#4 = 1#8) ∧
    (writesFlag i = false → vfIsDestination i = false → t.getV 0xF#4 = s.getV 0xF#4)

/-- For every state and X with the range in bounds, if FX55 stores V[k] and V[k+1] at the two bytes of the following
instruction, the fetch in the state it leaves reads the word whose high byte is V[k] and whose low byte is V[k+1].
The spec's decision D33 (log 32); a store below 0x200 is D14 (log 15), the check of the range D3 (log 9). -/
def Obligations.StoreSeenByNextFetch : Prop :=
  ∀ (s : State) (x k : Nibble), s.i.toNat + x.toNat < 4096 → k.toNat < x.toNat →
    (s.pc + 2#16).toNat = s.i.toNat + k.toNat →
    ∃ t w, exec (.stRegs x) s = .next t ∧ t.fetch = .ok w ∧
      w.toNat = (s.getV k).toNat * 256 + (s.getV (k + 1#4)).toNat

/-- For every state and X with the range in bounds: after FX55, FX65 with the same X from any state that has the same I
and the same memory gives back V[0..X] as they were stored; and FX65 followed by FX55 leaves every byte of memory
as it was. That both leave I unchanged is the spec's decision D15 (log 16), that a store below 0x200 takes effect
D14 (log 15), the check of the range D3 (log 9). -/
def Obligations.StoreThenLoadRestores : Prop :=
  ∀ (s : State) (x : Nibble), s.i.toNat + x.toNat < 4096 →
    (∃ t, exec (.stRegs x) s = .next t ∧ ∀ u : State, u.i = t.i → (∀ a, u.byteAt a = t.byteAt a) →
      ∃ w, exec (.ldRegs x) u = .next w ∧ ∀ k : Nibble, k.toNat ≤ x.toNat → w.getV k = s.getV k) ∧
    (∃ t w, exec (.ldRegs x) s = .next t ∧ exec (.stRegs x) t = .next w ∧ ∀ a, w.byteAt a = s.byteAt a)

/-- For every state with SP other than 16 and every target: 2NNN and then 00EE leave pc at the call's address plus 2
and the stack depth, the registers, I, memory and everything else as before the call, but for the bits of the one
stack entry at SP, which is free. The stack's shape, and that a popped entry keeps its bits, are the spec's
decision D20 (log 19). -/
def Obligations.CallThenReturn : Prop :=
  ∀ (s : State) (nnn : Addr12), s.sp.val ≠ 16 →
    ∃ t u, exec (.call nnn) s = .next t ∧ exec .ret t = .next u ∧ u.pc = s.pc + 2#16 ∧ u.sp = s.sp ∧
      (∀ j : Fin 16, j.val ≠ s.sp.val → u.stk[j] = s.stk[j]) ∧ Frame [.stack] s u

/-- From every state with an empty stack, any sixteen calls one after another complete with SP = 16, and a seventeenth
to any target takes StackOverflow with the address of that call and changes nothing but mode, record and outcome.
Decisions D4, D20 (logs 5, 19). -/
def Obligations.SixteenCallsThenOverflow : Prop :=
  ∀ (s : State) (as : List Addr12) (a : Addr12), s.sp.val = 0 → as.length = 16 →
    ∃ t u, callAll as s = .next t ∧ t.sp.val = 16 ∧ t.outcome = .ok ∧ Frame [.stack] s t ∧
      exec (.call a) t = .next u ∧ FaultTaken (.stackOverflow t.pc) t u

/-- For every step that answers: running it with any other values of ST and SND_REP also answers, and the two resulting
states agree on everything but ST and SND_REP. -/
def Obligations.SoundUnobservableByPrograms : Prop :=
  ∀ (s t : State) (b : Byte) (c : Bool), step s = .next t →
    ∃ t', step { s with st := b, sndRep := c } = .next t' ∧ t = { t' with st := t.st, sndRep := t.sndRep }

/-- For every step that answers: running it on any other display contents also answers, and the two resulting states
agree on everything but the display and, when the step executed a DXYN, VF. -/
def Obligations.DisplayUnobservableButForCollision : Prop :=
  ∀ (s t : State) (fb : FrameBuffer), step s = .next t →
    ∃ t', step { s with fb := fb } = .next t' ∧ t = { t' with fb := t.fb, v := t.v } ∧
      (t.v = t'.v ∨ ∃ w x y n, s.mode = .running ∧ s.fetch = .ok w ∧ decode w = .instr (.drw x y n) ∧ OnlyRegs [0xF#4] t t')

/-- For every step that answers: replacing the entries of STK at indexes SP and above by any values, the step also
answers, the two resulting states agree on everything but STK, and they agree on every entry below the new SP. The
stack's shape is the spec's decision D20 (log 19). -/
def Obligations.FreeStackEntriesUnobservable : Prop :=
  ∀ (s t : State) (stk : Vector Word 16), (∀ j : Fin 16, j.val < s.sp.val → stk[j] = s.stk[j]) → step s = .next t →
    ∃ t', step { s with stk := stk } = .next t' ∧ t = { t' with stk := t.stk } ∧
      ∀ j : Fin 16, j.val < t.sp.val → t'.stk[j] = t.stk[j]

/-- From any running state of a loaded machine with pc = p at most 4096 and every byte from p to 0xFFF zero: for every
k up to (4096 - p) div 2, k steps leave pc = p + 2k with nothing but pc and the outcome changed, each reporting
UnknownOpcode(0x0000); and one step after the last of these halts with AddressOutOfRange(0x1000, 0x1000) for even p
and AddressOutOfRange(0x1000, 0xFFF) for odd p. The record of the fault is the spec's decision D2 (log 9), that the
word 0x0000 is unknown and only advances D7 (log 10), what a fault commits D4 (log 5). -/
def Obligations.RunOffTheEndHalts : Prop :=
  ∀ s : State, s.launched = true → s.mode = .running → s.pc.toNat ≤ 4096 →
    (∀ a, s.pc.toNat ≤ a → a < 4096 → s.byteAt a = 0#8) →
    (∀ k, k ≤ (4096 - s.pc.toNat) / 2 → ∃ t, steps k s = .next t ∧
      t.pc.toNat = s.pc.toNat + 2 * k ∧ (0 < k → t.outcome = .unknownOpcode 0#16) ∧ Frame [] s t) ∧
    ∃ u, steps ((4096 - s.pc.toNat) / 2 + 1) s = .next u ∧ u.mode = .halted ∧
      u.fault = some (.addressOutOfRange 0x1000#16 (if s.pc.toNat % 2 = 0 then 0x1000#16 else 0xFFF#16)) ∧
      u.pc = (if s.pc.toNat % 2 = 0 then 0x1000#16 else 0xFFF#16) ∧ Frame [.mode, .fault] s u

/-- For every number of steps k from a finished state of a loaded machine (Running at a 1NNN whose target is its own
address): the run answers, the state is still finished, and nothing but the outcome, which is Ok, can differ. The
notion is the spec's decision D28 (log 24). -/
def Obligations.FinishedProgramStays : Prop :=
  ∀ (k : Nat) (s : State), s.launched = true → s.finished = true → ∃ t, steps (k + 1) s = .next t ∧
    t.finished = true ∧ t.outcome = .ok ∧ t = { s with outcome := t.outcome }

/-- From every state of a loaded machine awaiting a key with an empty latch: after any number of steps the machine
still waits, every step having reported Blocked and changed nothing; then set_key(Some(c)) and one step leave c in
V[WX], mode Running, outcome Ok and pc where it was, with nothing else changed but the latch. The protocol is the
spec's decision D9 (log 12). -/
def Obligations.WaitLastsUntilKey : Prop :=
  ∀ (k : Nat) (s : State) (c : Nibble), s.launched = true → s.mode = .awaitingKey → s.key = none →
    ∃ t, steps k s = .next t ∧ t = { s with outcome := t.outcome } ∧
      (0 < k → t.outcome = .blocked) ∧
      ∃ u, step (setKey (some c) t) = .next u ∧ (u.getV s.wx).toNat = c.toNat ∧ u.mode = .running ∧ u.outcome = .ok ∧
        u.pc = s.pc ∧ OnlyRegs [s.wx] s u ∧ Frame [.regs, .mode, .key] s u

/-- For every state: a step that is refused before the first load, in another mode than Running, or whose fetch faults,
emits no record; a running step of a loaded machine that fetches w emits the record with the address it was fetched
from, the raw word, the mnemonic of the opcode table when the word is known and none when it is unknown, and the
fields. The conditions are the spec's decision D27 (log 23), the refusal before the first load D19 (log 7). The
mnemonics are those of R81, the spec's decision D22, and U3 leaves them to the trace: that the record carries the
one of the opcode table, suffix included, is the model's choice (log 23); so is that the record of an unknown word
has none, R221 being silent there (log 23). -/
def Obligations.TraceRecordsFetchedWords : Prop :=
  ∀ s : State,
    (s.launched = false ∨ s.mode ≠ .running ∨ 0xFFE < s.pc.toNat → traceOf s = none) ∧
    (s.launched = true → s.mode = .running → ∀ w, s.fetch = .ok w → ∃ r, traceOf s = some r ∧ r.pcBefore = s.pc ∧ r.rawWord = w ∧
      (∀ i, decode w = .instr i → ∃ row, rows[rowIndex i]? = some row ∧ r.mnemonic = some row.mnemonic) ∧
      (decode w = .unknown w → r.mnemonic = none) ∧
      r.operands.op.toNat = w.toNat / 4096 ∧ r.operands.x.toNat = w.toNat / 256 % 16 ∧
      r.operands.y.toNat = w.toNat / 16 % 16 ∧ r.operands.n.toNat = w.toNat % 16 ∧
      r.operands.nn.toNat = w.toNat % 256 ∧ r.operands.nnn.toNat = w.toNat % 4096)

/-- For every 16-bit word: its disassembly assembles to the word; a word that decodes to an instruction is printed as a
line of the notation, a shift with Y not 0 with its two operands; an unknown word is printed as its two bytes. The
notation is the spec's decision D22 (log 31), which words are unknown D7 (log 10); that the terms of Instr keep the
ignored Y of 8XY6 and 8XYE is the model's choice (log 25), Y being ignored by the spec's decision D29. -/
def Obligations.ReassemblyRestoresWord : Prop :=
  ∀ w : Word,
    (disassemble w).assembled = some w ∧
    (∀ i, decode w = .instr i → ∃ line args, disassemble w = .line line args) ∧
    (∀ x y, decode w = .instr (.shr x y) → y ≠ 0#4 → disassemble w = .line .shr [.reg x.toNat, .reg y.toNat]) ∧
    (∀ x y, decode w = .instr (.shl x y) → y ≠ 0#4 → disassemble w = .line .shl [.reg x.toNat, .reg y.toNat]) ∧
    (∀ u, decode w = .unknown u → disassemble w = .byte (hiByte w) (loByte w))
end

