-- ==== Sys2Proof/Laws/Decode.lean ====
section
/-! SUPPORT. Words and fields as numbers: every field is a quotient and a remainder of the word (30_encoding.md R71), every
assembled word a sum of its fields (R7, R83), so that a fact about encodings is linear arithmetic. -/

namespace Sys2Proof

/-! ### Fields of a word -/

theorem toNat_opField (w : Word) : (opField w).toNat = w.toNat / 4096 % 16 := by
  simp [opField, Nat.shiftRight_eq_div_pow]

theorem toNat_xField (w : Word) : (xField w).toNat = w.toNat / 256 % 16 := by
  simp [xField, Nat.shiftRight_eq_div_pow]

theorem toNat_yField (w : Word) : (yField w).toNat = w.toNat / 16 % 16 := by
  simp [yField, Nat.shiftRight_eq_div_pow]

theorem toNat_nField (w : Word) : (nField w).toNat = w.toNat % 16 := by
  simp [nField]

theorem toNat_nnField (w : Word) : (nnField w).toNat = w.toNat % 256 := by
  simp [nnField]

theorem toNat_nnnField (w : Word) : (nnnField w).toNat = w.toNat % 4096 := by
  simp [nnnField]

theorem toNat_hiByte (w : Word) : (hiByte w).toNat = w.toNat / 256 := by
  have := w.isLt
  simp [hiByte, Nat.shiftRight_eq_div_pow]
  omega

theorem toNat_loByte (w : Word) : (loByte w).toNat = w.toNat % 256 := by
  simp [loByte]

/-! ### Assembled words -/

/-- Concatenation as a number: the high part times the size of the low part, plus the low part (00_scope.md R8). -/
theorem toNat_append_eq {m n : Nat} (a : BitVec m) (b : BitVec n) : (a ++ b).toNat = a.toNat * 2 ^ n + b.toNat := by
  rw [BitVec.toNat_append, ← Nat.shiftLeft_add_eq_or_of_lt b.isLt, Nat.shiftLeft_eq]

theorem toNat_wordOfBytes (hi lo : Byte) : (wordOfBytes hi lo).toNat = hi.toNat * 256 + lo.toNat :=
  toNat_append_eq hi lo

theorem toNat_nibbles (a b c d : Nibble) :
    (nibbles a b c d).toNat = a.toNat * 4096 + b.toNat * 256 + c.toNat * 16 + d.toNat := by
  have h : (nibbles a b c d).toNat = ((a.toNat * 2 ^ 4 + b.toNat) * 2 ^ 4 + c.toNat) * 2 ^ 4 + d.toNat := by
    rw [← toNat_append_eq, ← toNat_append_eq, ← toNat_append_eq]
    rfl
  omega

theorem toNat_wordAddr (op : Nibble) (nnn : Addr12) : (wordAddr op nnn).toNat = op.toNat * 4096 + nnn.toNat :=
  toNat_append_eq op nnn

theorem toNat_wordXByte (op x : Nibble) (b : Byte) :
    (wordXByte op x b).toNat = op.toNat * 4096 + x.toNat * 256 + b.toNat := by
  have h := toNat_append_eq (op ++ x) b
  rw [toNat_append_eq op x] at h
  exact h.trans (by omega)

/-! ### The fields of an assembled word -/

@[simp] theorem opField_nibbles (a b c d : Nibble) : opField (nibbles a b c d) = a := by
  apply BitVec.eq_of_toNat_eq
  rw [toNat_opField, toNat_nibbles]
  omega

@[simp] theorem xField_nibbles (a b c d : Nibble) : xField (nibbles a b c d) = b := by
  apply BitVec.eq_of_toNat_eq
  rw [toNat_xField, toNat_nibbles]
  omega

@[simp] theorem yField_nibbles (a b c d : Nibble) : yField (nibbles a b c d) = c := by
  apply BitVec.eq_of_toNat_eq
  rw [toNat_yField, toNat_nibbles]
  omega

@[simp] theorem nField_nibbles (a b c d : Nibble) : nField (nibbles a b c d) = d := by
  apply BitVec.eq_of_toNat_eq
  rw [toNat_nField, toNat_nibbles]
  omega

@[simp] theorem opField_wordAddr (op : Nibble) (nnn : Addr12) : opField (wordAddr op nnn) = op := by
  apply BitVec.eq_of_toNat_eq
  rw [toNat_opField, toNat_wordAddr]
  omega

@[simp] theorem nnnField_wordAddr (op : Nibble) (nnn : Addr12) : nnnField (wordAddr op nnn) = nnn := by
  apply BitVec.eq_of_toNat_eq
  rw [toNat_nnnField, toNat_wordAddr]
  omega

@[simp] theorem opField_wordXByte (op x : Nibble) (b : Byte) : opField (wordXByte op x b) = op := by
  apply BitVec.eq_of_toNat_eq
  rw [toNat_opField, toNat_wordXByte]
  omega

@[simp] theorem xField_wordXByte (op x : Nibble) (b : Byte) : xField (wordXByte op x b) = x := by
  apply BitVec.eq_of_toNat_eq
  rw [toNat_xField, toNat_wordXByte]
  omega

@[simp] theorem nnField_wordXByte (op x : Nibble) (b : Byte) : nnField (wordXByte op x b) = b := by
  apply BitVec.eq_of_toNat_eq
  rw [toNat_nnField, toNat_wordXByte]
  omega

/-! ### Bytes in memory order -/

@[simp] theorem wordOfBytes_hi_lo (w : Word) : wordOfBytes (hiByte w) (loByte w) = w := by
  apply BitVec.eq_of_toNat_eq
  rw [toNat_wordOfBytes, toNat_hiByte, toNat_loByte]
  omega

@[simp] theorem hiByte_wordOfBytes (hi lo : Byte) : hiByte (wordOfBytes hi lo) = hi := by
  apply BitVec.eq_of_toNat_eq
  rw [toNat_hiByte, toNat_wordOfBytes]
  omega

@[simp] theorem loByte_wordOfBytes (hi lo : Byte) : loByte (wordOfBytes hi lo) = lo := by
  apply BitVec.eq_of_toNat_eq
  rw [toNat_loByte, toNat_wordOfBytes]
  omega

/-! ### Bits of assembled words -/

theorem getLsbD_nibbles (a b c d : Nibble) (i : Nat) :
    (nibbles a b c d).getLsbD i =
      if i < 4 then d.getLsbD i
      else if i < 8 then c.getLsbD (i - 4) else if i < 12 then b.getLsbD (i - 8) else a.getLsbD (i - 12) := by
  have h : (nibbles a b c d).getLsbD i = (a ++ b ++ c ++ d).getLsbD i := rfl
  rw [h]
  simp only [BitVec.getLsbD_append, Nat.sub_sub]
  split_ifs <;> first | rfl | omega

theorem getLsbD_wordXByte (a b : Nibble) (c : Byte) (i : Nat) :
    (wordXByte a b c).getLsbD i =
      if i < 8 then c.getLsbD i else if i < 12 then b.getLsbD (i - 8) else a.getLsbD (i - 12) := by
  have h : (wordXByte a b c).getLsbD i = (a ++ b ++ c).getLsbD i := rfl
  rw [h]
  simp only [BitVec.getLsbD_append, Nat.sub_sub]
  split_ifs <;> first | rfl | omega

theorem getLsbD_wordAddr (a : Nibble) (c : Addr12) (i : Nat) :
    (wordAddr a c).getLsbD i = if i < 12 then c.getLsbD i else a.getLsbD (i - 12) := by
  have h : (wordAddr a c).getLsbD i = (a ++ c).getLsbD i := rfl
  rw [h]
  simp only [BitVec.getLsbD_append]

/-! ### Masks of the opcode table (30_encoding.md R74), as fields -/

theorem and_F000 (w : Word) : w &&& 0xF000#16 = nibbles (opField w) 0#4 0#4 0#4 := by
  apply BitVec.eq_of_getLsbD_eq
  intro i hi
  rw [getLsbD_nibbles]
  interval_cases i <;> simp [opField]

theorem and_F00F (w : Word) : w &&& 0xF00F#16 = nibbles (opField w) 0#4 0#4 (nField w) := by
  apply BitVec.eq_of_getLsbD_eq
  intro i hi
  rw [getLsbD_nibbles]
  interval_cases i <;> simp [opField, nField]

theorem and_F0FF (w : Word) : w &&& 0xF0FF#16 = wordXByte (opField w) 0#4 (nnField w) := by
  apply BitVec.eq_of_getLsbD_eq
  intro i hi
  rw [getLsbD_wordXByte]
  interval_cases i <;> simp [opField, nnField]

/-- Every instruction is well formed: its fields are held at their own widths (30_encoding.md R81). -/
theorem wellFormed_all (i : Instr) : i.wellFormed = true := by
  cases i <;>
    simp only [Instr.wellFormed, Instr.operands, Operands.wellFormed, Operands.regOk, Operands.immOk, Operands.addrOk,
      Operands.rowsOk, Bool.and_eq_true, decide_eq_true_eq] <;> omega

end Sys2Proof
end

