-- ==== Sys2Proof/Laws/State.lean ====
section
/-! SUPPORT. One lemma per field per update, so that no later proof unfolds a record update; what a register read and a
memory read see of each update. -/

namespace Sys2Proof.Machine

variable (s : State)

/-! ### `State.setV` -/

@[simp] theorem setV_mem (r : Nibble) (b : Byte) : (s.setV r b).mem = s.mem := rfl
@[simp] theorem setV_i (r : Nibble) (b : Byte) : (s.setV r b).i = s.i := rfl
@[simp] theorem setV_pc (r : Nibble) (b : Byte) : (s.setV r b).pc = s.pc := rfl
@[simp] theorem setV_stk (r : Nibble) (b : Byte) : (s.setV r b).stk = s.stk := rfl
@[simp] theorem setV_sp (r : Nibble) (b : Byte) : (s.setV r b).sp = s.sp := rfl
@[simp] theorem setV_fb (r : Nibble) (b : Byte) : (s.setV r b).fb = s.fb := rfl
@[simp] theorem setV_dt (r : Nibble) (b : Byte) : (s.setV r b).dt = s.dt := rfl
@[simp] theorem setV_st (r : Nibble) (b : Byte) : (s.setV r b).st = s.st := rfl
@[simp] theorem setV_key (r : Nibble) (b : Byte) : (s.setV r b).key = s.key := rfl
@[simp] theorem setV_mode (r : Nibble) (b : Byte) : (s.setV r b).mode = s.mode := rfl
@[simp] theorem setV_wx (r : Nibble) (b : Byte) : (s.setV r b).wx = s.wx := rfl
@[simp] theorem setV_fault (r : Nibble) (b : Byte) : (s.setV r b).fault = s.fault := rfl
@[simp] theorem setV_sndRep (r : Nibble) (b : Byte) : (s.setV r b).sndRep = s.sndRep := rfl
@[simp] theorem setV_outcome (r : Nibble) (b : Byte) : (s.setV r b).outcome = s.outcome := rfl
@[simp] theorem setV_draws (r : Nibble) (b : Byte) : (s.setV r b).draws = s.draws := rfl
@[simp] theorem setV_font (r : Nibble) (b : Byte) : (s.setV r b).font = s.font := rfl
@[simp] theorem setV_launched (r : Nibble) (b : Byte) : (s.setV r b).launched = s.launched := rfl

/-! ### `State.advance` -/

@[simp] theorem advance_mem : (s.advance).mem = s.mem := rfl
@[simp] theorem advance_v : (s.advance).v = s.v := rfl
@[simp] theorem advance_i : (s.advance).i = s.i := rfl
@[simp] theorem advance_pc : (s.advance).pc = s.pc + 2#16 := rfl
@[simp] theorem advance_stk : (s.advance).stk = s.stk := rfl
@[simp] theorem advance_sp : (s.advance).sp = s.sp := rfl
@[simp] theorem advance_fb : (s.advance).fb = s.fb := rfl
@[simp] theorem advance_dt : (s.advance).dt = s.dt := rfl
@[simp] theorem advance_st : (s.advance).st = s.st := rfl
@[simp] theorem advance_key : (s.advance).key = s.key := rfl
@[simp] theorem advance_mode : (s.advance).mode = s.mode := rfl
@[simp] theorem advance_wx : (s.advance).wx = s.wx := rfl
@[simp] theorem advance_fault : (s.advance).fault = s.fault := rfl
@[simp] theorem advance_sndRep : (s.advance).sndRep = s.sndRep := rfl
@[simp] theorem advance_outcome : (s.advance).outcome = .ok := rfl
@[simp] theorem advance_draws : (s.advance).draws = s.draws := rfl
@[simp] theorem advance_font : (s.advance).font = s.font := rfl
@[simp] theorem advance_launched : (s.advance).launched = s.launched := rfl

/-! ### `State.skip` -/

@[simp] theorem skip_mem : (s.skip).mem = s.mem := rfl
@[simp] theorem skip_v : (s.skip).v = s.v := rfl
@[simp] theorem skip_i : (s.skip).i = s.i := rfl
@[simp] theorem skip_pc : (s.skip).pc = s.pc + 2#16 := rfl
@[simp] theorem skip_stk : (s.skip).stk = s.stk := rfl
@[simp] theorem skip_sp : (s.skip).sp = s.sp := rfl
@[simp] theorem skip_fb : (s.skip).fb = s.fb := rfl
@[simp] theorem skip_dt : (s.skip).dt = s.dt := rfl
@[simp] theorem skip_st : (s.skip).st = s.st := rfl
@[simp] theorem skip_key : (s.skip).key = s.key := rfl
@[simp] theorem skip_mode : (s.skip).mode = s.mode := rfl
@[simp] theorem skip_wx : (s.skip).wx = s.wx := rfl
@[simp] theorem skip_fault : (s.skip).fault = s.fault := rfl
@[simp] theorem skip_sndRep : (s.skip).sndRep = s.sndRep := rfl
@[simp] theorem skip_outcome : (s.skip).outcome = s.outcome := rfl
@[simp] theorem skip_draws : (s.skip).draws = s.draws := rfl
@[simp] theorem skip_font : (s.skip).font = s.font := rfl
@[simp] theorem skip_launched : (s.skip).launched = s.launched := rfl

/-! ### `State.takeFault` -/

@[simp] theorem takeFault_mem (f : FaultRecord) : (s.takeFault f).mem = s.mem := rfl
@[simp] theorem takeFault_v (f : FaultRecord) : (s.takeFault f).v = s.v := rfl
@[simp] theorem takeFault_i (f : FaultRecord) : (s.takeFault f).i = s.i := rfl
@[simp] theorem takeFault_pc (f : FaultRecord) : (s.takeFault f).pc = s.pc := rfl
@[simp] theorem takeFault_stk (f : FaultRecord) : (s.takeFault f).stk = s.stk := rfl
@[simp] theorem takeFault_sp (f : FaultRecord) : (s.takeFault f).sp = s.sp := rfl
@[simp] theorem takeFault_fb (f : FaultRecord) : (s.takeFault f).fb = s.fb := rfl
@[simp] theorem takeFault_dt (f : FaultRecord) : (s.takeFault f).dt = s.dt := rfl
@[simp] theorem takeFault_st (f : FaultRecord) : (s.takeFault f).st = s.st := rfl
@[simp] theorem takeFault_key (f : FaultRecord) : (s.takeFault f).key = s.key := rfl
@[simp] theorem takeFault_mode (f : FaultRecord) : (s.takeFault f).mode = .halted := rfl
@[simp] theorem takeFault_wx (f : FaultRecord) : (s.takeFault f).wx = s.wx := rfl
@[simp] theorem takeFault_fault (f : FaultRecord) : (s.takeFault f).fault = some f := rfl
@[simp] theorem takeFault_sndRep (f : FaultRecord) : (s.takeFault f).sndRep = s.sndRep := rfl
@[simp] theorem takeFault_outcome (f : FaultRecord) : (s.takeFault f).outcome = .fault f := rfl
@[simp] theorem takeFault_draws (f : FaultRecord) : (s.takeFault f).draws = s.draws := rfl
@[simp] theorem takeFault_font (f : FaultRecord) : (s.takeFault f).font = s.font := rfl
@[simp] theorem takeFault_launched (f : FaultRecord) : (s.takeFault f).launched = s.launched := rfl

/-! ### `State.unknownStep` -/

@[simp] theorem unknownStep_mem (w : Word) : (s.unknownStep w).mem = s.mem := rfl
@[simp] theorem unknownStep_v (w : Word) : (s.unknownStep w).v = s.v := rfl
@[simp] theorem unknownStep_i (w : Word) : (s.unknownStep w).i = s.i := rfl
@[simp] theorem unknownStep_pc (w : Word) : (s.unknownStep w).pc = s.pc + 2#16 := rfl
@[simp] theorem unknownStep_stk (w : Word) : (s.unknownStep w).stk = s.stk := rfl
@[simp] theorem unknownStep_sp (w : Word) : (s.unknownStep w).sp = s.sp := rfl
@[simp] theorem unknownStep_fb (w : Word) : (s.unknownStep w).fb = s.fb := rfl
@[simp] theorem unknownStep_dt (w : Word) : (s.unknownStep w).dt = s.dt := rfl
@[simp] theorem unknownStep_st (w : Word) : (s.unknownStep w).st = s.st := rfl
@[simp] theorem unknownStep_key (w : Word) : (s.unknownStep w).key = s.key := rfl
@[simp] theorem unknownStep_mode (w : Word) : (s.unknownStep w).mode = s.mode := rfl
@[simp] theorem unknownStep_wx (w : Word) : (s.unknownStep w).wx = s.wx := rfl
@[simp] theorem unknownStep_fault (w : Word) : (s.unknownStep w).fault = s.fault := rfl
@[simp] theorem unknownStep_sndRep (w : Word) : (s.unknownStep w).sndRep = s.sndRep := rfl
@[simp] theorem unknownStep_outcome (w : Word) : (s.unknownStep w).outcome = .unknownOpcode w := rfl
@[simp] theorem unknownStep_draws (w : Word) : (s.unknownStep w).draws = s.draws := rfl
@[simp] theorem unknownStep_font (w : Word) : (s.unknownStep w).font = s.font := rfl
@[simp] theorem unknownStep_launched (w : Word) : (s.unknownStep w).launched = s.launched := rfl

/-! ### `State.setFlag` -/

@[simp] theorem setFlag_mem (c : Bool) : (s.setFlag c).mem = s.mem := rfl
@[simp] theorem setFlag_i (c : Bool) : (s.setFlag c).i = s.i := rfl
@[simp] theorem setFlag_pc (c : Bool) : (s.setFlag c).pc = s.pc := rfl
@[simp] theorem setFlag_stk (c : Bool) : (s.setFlag c).stk = s.stk := rfl
@[simp] theorem setFlag_sp (c : Bool) : (s.setFlag c).sp = s.sp := rfl
@[simp] theorem setFlag_fb (c : Bool) : (s.setFlag c).fb = s.fb := rfl
@[simp] theorem setFlag_dt (c : Bool) : (s.setFlag c).dt = s.dt := rfl
@[simp] theorem setFlag_st (c : Bool) : (s.setFlag c).st = s.st := rfl
@[simp] theorem setFlag_key (c : Bool) : (s.setFlag c).key = s.key := rfl
@[simp] theorem setFlag_mode (c : Bool) : (s.setFlag c).mode = s.mode := rfl
@[simp] theorem setFlag_wx (c : Bool) : (s.setFlag c).wx = s.wx := rfl
@[simp] theorem setFlag_fault (c : Bool) : (s.setFlag c).fault = s.fault := rfl
@[simp] theorem setFlag_sndRep (c : Bool) : (s.setFlag c).sndRep = s.sndRep := rfl
@[simp] theorem setFlag_outcome (c : Bool) : (s.setFlag c).outcome = s.outcome := rfl
@[simp] theorem setFlag_draws (c : Bool) : (s.setFlag c).draws = s.draws := rfl
@[simp] theorem setFlag_font (c : Bool) : (s.setFlag c).font = s.font := rfl
@[simp] theorem setFlag_launched (c : Bool) : (s.setFlag c).launched = s.launched := rfl

/-! ### `State.setResultAndFlag` and `State.skipIf` -/

@[simp] theorem setResultAndFlag_mem (x : Nibble) (b : Byte) (c : Bool) : (s.setResultAndFlag x b c).mem = s.mem := rfl
@[simp] theorem setResultAndFlag_i (x : Nibble) (b : Byte) (c : Bool) : (s.setResultAndFlag x b c).i = s.i := rfl
@[simp] theorem setResultAndFlag_pc (x : Nibble) (b : Byte) (c : Bool) : (s.setResultAndFlag x b c).pc = s.pc := rfl
@[simp] theorem setResultAndFlag_stk (x : Nibble) (b : Byte) (c : Bool) : (s.setResultAndFlag x b c).stk = s.stk := rfl
@[simp] theorem setResultAndFlag_sp (x : Nibble) (b : Byte) (c : Bool) : (s.setResultAndFlag x b c).sp = s.sp := rfl
@[simp] theorem setResultAndFlag_fb (x : Nibble) (b : Byte) (c : Bool) : (s.setResultAndFlag x b c).fb = s.fb := rfl
@[simp] theorem setResultAndFlag_dt (x : Nibble) (b : Byte) (c : Bool) : (s.setResultAndFlag x b c).dt = s.dt := rfl
@[simp] theorem setResultAndFlag_st (x : Nibble) (b : Byte) (c : Bool) : (s.setResultAndFlag x b c).st = s.st := rfl
@[simp] theorem setResultAndFlag_key (x : Nibble) (b : Byte) (c : Bool) : (s.setResultAndFlag x b c).key = s.key := rfl
@[simp] theorem setResultAndFlag_mode (x : Nibble) (b : Byte) (c : Bool) : (s.setResultAndFlag x b c).mode = s.mode := rfl
@[simp] theorem setResultAndFlag_wx (x : Nibble) (b : Byte) (c : Bool) : (s.setResultAndFlag x b c).wx = s.wx := rfl
@[simp] theorem setResultAndFlag_fault (x : Nibble) (b : Byte) (c : Bool) : (s.setResultAndFlag x b c).fault = s.fault := rfl
@[simp] theorem setResultAndFlag_sndRep (x : Nibble) (b : Byte) (c : Bool) : (s.setResultAndFlag x b c).sndRep = s.sndRep := rfl
@[simp] theorem setResultAndFlag_outcome (x : Nibble) (b : Byte) (c : Bool) : (s.setResultAndFlag x b c).outcome = s.outcome := rfl
@[simp] theorem setResultAndFlag_draws (x : Nibble) (b : Byte) (c : Bool) : (s.setResultAndFlag x b c).draws = s.draws := rfl
@[simp] theorem setResultAndFlag_font (x : Nibble) (b : Byte) (c : Bool) : (s.setResultAndFlag x b c).font = s.font := rfl
@[simp] theorem setResultAndFlag_launched (x : Nibble) (b : Byte) (c : Bool) : (s.setResultAndFlag x b c).launched = s.launched := rfl

@[simp] theorem skipIf_mem (c : Bool) : (s.skipIf c).mem = s.mem := by cases c <;> rfl
@[simp] theorem skipIf_v (c : Bool) : (s.skipIf c).v = s.v := by cases c <;> rfl
@[simp] theorem skipIf_i (c : Bool) : (s.skipIf c).i = s.i := by cases c <;> rfl
@[simp] theorem skipIf_pc (c : Bool) : (s.skipIf c).pc = if c then s.pc + 2#16 else s.pc := by cases c <;> rfl
@[simp] theorem skipIf_stk (c : Bool) : (s.skipIf c).stk = s.stk := by cases c <;> rfl
@[simp] theorem skipIf_sp (c : Bool) : (s.skipIf c).sp = s.sp := by cases c <;> rfl
@[simp] theorem skipIf_fb (c : Bool) : (s.skipIf c).fb = s.fb := by cases c <;> rfl
@[simp] theorem skipIf_dt (c : Bool) : (s.skipIf c).dt = s.dt := by cases c <;> rfl
@[simp] theorem skipIf_st (c : Bool) : (s.skipIf c).st = s.st := by cases c <;> rfl
@[simp] theorem skipIf_key (c : Bool) : (s.skipIf c).key = s.key := by cases c <;> rfl
@[simp] theorem skipIf_mode (c : Bool) : (s.skipIf c).mode = s.mode := by cases c <;> rfl
@[simp] theorem skipIf_wx (c : Bool) : (s.skipIf c).wx = s.wx := by cases c <;> rfl
@[simp] theorem skipIf_fault (c : Bool) : (s.skipIf c).fault = s.fault := by cases c <;> rfl
@[simp] theorem skipIf_sndRep (c : Bool) : (s.skipIf c).sndRep = s.sndRep := by cases c <;> rfl
@[simp] theorem skipIf_outcome (c : Bool) : (s.skipIf c).outcome = s.outcome := by cases c <;> rfl
@[simp] theorem skipIf_draws (c : Bool) : (s.skipIf c).draws = s.draws := by cases c <;> rfl
@[simp] theorem skipIf_font (c : Bool) : (s.skipIf c).font = s.font := by cases c <;> rfl
@[simp] theorem skipIf_launched (c : Bool) : (s.skipIf c).launched = s.launched := by cases c <;> rfl

/-! ### `State.storeBytes` -/

@[simp] theorem storeBytes_mem (a : Nat) (bs : List Byte) : (s.storeBytes a bs).mem = s.mem.storeBytes s.font a bs := rfl
@[simp] theorem storeBytes_v (a : Nat) (bs : List Byte) : (s.storeBytes a bs).v = s.v := rfl
@[simp] theorem storeBytes_i (a : Nat) (bs : List Byte) : (s.storeBytes a bs).i = s.i := rfl
@[simp] theorem storeBytes_pc (a : Nat) (bs : List Byte) : (s.storeBytes a bs).pc = s.pc := rfl
@[simp] theorem storeBytes_stk (a : Nat) (bs : List Byte) : (s.storeBytes a bs).stk = s.stk := rfl
@[simp] theorem storeBytes_sp (a : Nat) (bs : List Byte) : (s.storeBytes a bs).sp = s.sp := rfl
@[simp] theorem storeBytes_fb (a : Nat) (bs : List Byte) : (s.storeBytes a bs).fb = s.fb := rfl
@[simp] theorem storeBytes_dt (a : Nat) (bs : List Byte) : (s.storeBytes a bs).dt = s.dt := rfl
@[simp] theorem storeBytes_st (a : Nat) (bs : List Byte) : (s.storeBytes a bs).st = s.st := rfl
@[simp] theorem storeBytes_key (a : Nat) (bs : List Byte) : (s.storeBytes a bs).key = s.key := rfl
@[simp] theorem storeBytes_mode (a : Nat) (bs : List Byte) : (s.storeBytes a bs).mode = s.mode := rfl
@[simp] theorem storeBytes_wx (a : Nat) (bs : List Byte) : (s.storeBytes a bs).wx = s.wx := rfl
@[simp] theorem storeBytes_fault (a : Nat) (bs : List Byte) : (s.storeBytes a bs).fault = s.fault := rfl
@[simp] theorem storeBytes_sndRep (a : Nat) (bs : List Byte) : (s.storeBytes a bs).sndRep = s.sndRep := rfl
@[simp] theorem storeBytes_outcome (a : Nat) (bs : List Byte) : (s.storeBytes a bs).outcome = s.outcome := rfl
@[simp] theorem storeBytes_draws (a : Nat) (bs : List Byte) : (s.storeBytes a bs).draws = s.draws := rfl
@[simp] theorem storeBytes_font (a : Nat) (bs : List Byte) : (s.storeBytes a bs).font = s.font := rfl
@[simp] theorem storeBytes_launched (a : Nat) (bs : List Byte) : (s.storeBytes a bs).launched = s.launched := rfl

/-! ### `State.setRegs` -/

@[simp] theorem setRegs_mem (r : Nat) (bs : List Byte) : (s.setRegs r bs).mem = s.mem := by
  induction bs generalizing s r with
  | nil => rfl
  | cons b bs ih => simp [State.setRegs, ih]
@[simp] theorem setRegs_i (r : Nat) (bs : List Byte) : (s.setRegs r bs).i = s.i := by
  induction bs generalizing s r with
  | nil => rfl
  | cons b bs ih => simp [State.setRegs, ih]
@[simp] theorem setRegs_pc (r : Nat) (bs : List Byte) : (s.setRegs r bs).pc = s.pc := by
  induction bs generalizing s r with
  | nil => rfl
  | cons b bs ih => simp [State.setRegs, ih]
@[simp] theorem setRegs_stk (r : Nat) (bs : List Byte) : (s.setRegs r bs).stk = s.stk := by
  induction bs generalizing s r with
  | nil => rfl
  | cons b bs ih => simp [State.setRegs, ih]
@[simp] theorem setRegs_sp (r : Nat) (bs : List Byte) : (s.setRegs r bs).sp = s.sp := by
  induction bs generalizing s r with
  | nil => rfl
  | cons b bs ih => simp [State.setRegs, ih]
@[simp] theorem setRegs_fb (r : Nat) (bs : List Byte) : (s.setRegs r bs).fb = s.fb := by
  induction bs generalizing s r with
  | nil => rfl
  | cons b bs ih => simp [State.setRegs, ih]
@[simp] theorem setRegs_dt (r : Nat) (bs : List Byte) : (s.setRegs r bs).dt = s.dt := by
  induction bs generalizing s r with
  | nil => rfl
  | cons b bs ih => simp [State.setRegs, ih]
@[simp] theorem setRegs_st (r : Nat) (bs : List Byte) : (s.setRegs r bs).st = s.st := by
  induction bs generalizing s r with
  | nil => rfl
  | cons b bs ih => simp [State.setRegs, ih]
@[simp] theorem setRegs_key (r : Nat) (bs : List Byte) : (s.setRegs r bs).key = s.key := by
  induction bs generalizing s r with
  | nil => rfl
  | cons b bs ih => simp [State.setRegs, ih]
@[simp] theorem setRegs_mode (r : Nat) (bs : List Byte) : (s.setRegs r bs).mode = s.mode := by
  induction bs generalizing s r with
  | nil => rfl
  | cons b bs ih => simp [State.setRegs, ih]
@[simp] theorem setRegs_wx (r : Nat) (bs : List Byte) : (s.setRegs r bs).wx = s.wx := by
  induction bs generalizing s r with
  | nil => rfl
  | cons b bs ih => simp [State.setRegs, ih]
@[simp] theorem setRegs_fault (r : Nat) (bs : List Byte) : (s.setRegs r bs).fault = s.fault := by
  induction bs generalizing s r with
  | nil => rfl
  | cons b bs ih => simp [State.setRegs, ih]
@[simp] theorem setRegs_sndRep (r : Nat) (bs : List Byte) : (s.setRegs r bs).sndRep = s.sndRep := by
  induction bs generalizing s r with
  | nil => rfl
  | cons b bs ih => simp [State.setRegs, ih]
@[simp] theorem setRegs_outcome (r : Nat) (bs : List Byte) : (s.setRegs r bs).outcome = s.outcome := by
  induction bs generalizing s r with
  | nil => rfl
  | cons b bs ih => simp [State.setRegs, ih]
@[simp] theorem setRegs_draws (r : Nat) (bs : List Byte) : (s.setRegs r bs).draws = s.draws := by
  induction bs generalizing s r with
  | nil => rfl
  | cons b bs ih => simp [State.setRegs, ih]
@[simp] theorem setRegs_font (r : Nat) (bs : List Byte) : (s.setRegs r bs).font = s.font := by
  induction bs generalizing s r with
  | nil => rfl
  | cons b bs ih => simp [State.setRegs, ih]
@[simp] theorem setRegs_launched (r : Nat) (bs : List Byte) : (s.setRegs r bs).launched = s.launched := by
  induction bs generalizing s r with
  | nil => rfl
  | cons b bs ih => simp [State.setRegs, ih]

/-! ### Reading registers -/

/-- A register read depends on `V` alone. -/
theorem getV_congr {s t : State} (h : t.v = s.v) (r : Nibble) : t.getV r = s.getV r := by simp [State.getV, h]

/-- The normal form of a register read is `State.getV`. -/
@[simp] theorem getElem_v (r : Nibble) (h : r.toNat < 16) : s.v[r.toNat] = s.getV r := rfl

@[simp] theorem getV_mk (mem v i pc stk sp fb dt st key mode wx fault sndRep outcome draws font launched) (r : Nibble) :
    State.getV ⟨mem, v, i, pc, stk, sp, fb, dt, st, key, mode, wx, fault, sndRep, outcome, draws, font, launched⟩ r =
      v[r.toNat]'(regIndex_lt r) := rfl

/-- A register write is seen by reads of that register and by no other (10_state.md R21). -/
@[simp] theorem getV_setV (r : Nibble) (b : Byte) (q : Nibble) :
    (s.setV r b).getV q = if r = q then b else s.getV q := by
  unfold State.getV State.setV
  simp only [Vector.getElem_set, BitVec.toNat_inj]

@[simp] theorem getV_advance (r : Nibble) : s.advance.getV r = s.getV r := rfl
@[simp] theorem getV_skip (r : Nibble) : s.skip.getV r = s.getV r := rfl
@[simp] theorem getV_skipIf (c : Bool) (r : Nibble) : (s.skipIf c).getV r = s.getV r := by cases c <;> rfl
@[simp] theorem getV_takeFault (f : FaultRecord) (r : Nibble) : (s.takeFault f).getV r = s.getV r := rfl
@[simp] theorem getV_unknownStep (w : Word) (r : Nibble) : (s.unknownStep w).getV r = s.getV r := rfl

@[simp] theorem getV_storeBytes (a : Nat) (bs : List Byte) (r : Nibble) : (s.storeBytes a bs).getV r = s.getV r := rfl

/-- VF reads as the flag after a flag write, and no other register changes. -/
@[simp] theorem getV_setFlag (c : Bool) (q : Nibble) :
    (s.setFlag c).getV q = if vf = q then flagByte c else s.getV q := getV_setV s vf (flagByte c) q

/-- The flag is written last: it is what VF holds, also when VF is the destination (43_alu.md R130). -/
@[simp] theorem getV_setResultAndFlag (x : Nibble) (b : Byte) (c : Bool) (q : Nibble) :
    (s.setResultAndFlag x b c).getV q = if vf = q then flagByte c else if x = q then b else s.getV q := by
  simp [State.setResultAndFlag]

@[simp] theorem getV_reset (r : Nibble) : State.reset.getV r = 0#8 := by
  simp [State.getV, State.reset]

/-! ### Reading memory -/

/-- A memory read depends on `MEM`, and on the font it was reset with, alone. -/
theorem byteAt_congr {s t : State} (h : t.mem = s.mem) (hf : t.font = s.font) (a : Nat) : t.byteAt a = s.byteAt a := by
  simp [State.byteAt, h, hf]

@[simp] theorem byteAt_mk (mem v i pc stk sp fb dt st key mode wx fault sndRep outcome draws font launched) (a : Nat) :
    State.byteAt ⟨mem, v, i, pc, stk, sp, fb, dt, st, key, mode, wx, fault, sndRep, outcome, draws, font, launched⟩ a =
      mem.read font a := rfl

/-- The normal form of a memory read is `State.byteAt`. -/
@[simp] theorem read_mem (a : Nat) : s.mem.read s.font a = s.byteAt a := rfl

@[simp] theorem byteAt_setV (r : Nibble) (b : Byte) (a : Nat) : (s.setV r b).byteAt a = s.byteAt a := rfl
@[simp] theorem byteAt_advance (a : Nat) : s.advance.byteAt a = s.byteAt a := rfl
@[simp] theorem byteAt_skipIf (c : Bool) (a : Nat) : (s.skipIf c).byteAt a = s.byteAt a := by cases c <;> rfl
@[simp] theorem byteAt_takeFault (f : FaultRecord) (a : Nat) : (s.takeFault f).byteAt a = s.byteAt a := rfl
@[simp] theorem byteAt_unknownStep (w : Word) (a : Nat) : (s.unknownStep w).byteAt a = s.byteAt a := rfl
@[simp] theorem byteAt_setFlag (c : Bool) (a : Nat) : (s.setFlag c).byteAt a = s.byteAt a := rfl
@[simp] theorem byteAt_setResultAndFlag (x : Nibble) (b : Byte) (c : Bool) (a : Nat) :
    (s.setResultAndFlag x b c).byteAt a = s.byteAt a := rfl
@[simp] theorem byteAt_setRegs (r : Nat) (bs : List Byte) (a : Nat) : (s.setRegs r bs).byteAt a = s.byteAt a :=
  byteAt_congr (setRegs_mem s r bs) (setRegs_font s r bs) a

end Sys2Proof.Machine
end

