-- ==== Sys2Proof/Laws/Memory.lean ====
section
/-! SUPPORT. The laws of memory: what a read sees of a store, of a run of stores and of a loaded image; the canonical form is
kept by every operation (log 28). -/

namespace Sys2Proof.Machine.Memory

variable (font : Font)

/-! ### One byte -/

theorem read_erase (m : Memory) (a c : Nat) : (erase m a).read font c = if a = c then unlisted font c else m.read font c := by
  induction m with
  | nil => simp [erase, read]
  | cons e m ih =>
    obtain ⟨k, b⟩ := e
    by_cases hk : k = a
    · subst hk
      by_cases hc : k = c <;> simp_all [erase, read]
    · by_cases hc : k = c
      · subst hc
        simp [erase, read, hk, Ne.symm hk]
      · simp [erase, read, hk, hc, ih]

/-- Reading after an insertion at an address that has no entry. -/
theorem read_insert (m : Memory) (a : Nat) (b : Byte) (c : Nat) (h : ∀ e ∈ m, e.1 ≠ a) :
    (insert m a b).read font c = if a = c then b else m.read font c := by
  induction m with
  | nil => simp [insert, read]
  | cons e m ih =>
    obtain ⟨k, d⟩ := e
    have hk : k ≠ a := h (k, d) (by simp)
    have hm : ∀ e ∈ m, e.1 ≠ a := fun e he => h e (by simp [he])
    by_cases hlt : a < k
    · simp [insert, hlt, read]
    · by_cases hc : k = c
      · subst hc
        simp [insert, hlt, read, Ne.symm hk]
      · simp [insert, hlt, read, hc, ih hm]

theorem erase_no_entry (m : Memory) (a : Nat) : ∀ e ∈ erase m a, e.1 ≠ a := by
  induction m with
  | nil => simp [erase]
  | cons e m ih =>
    obtain ⟨k, b⟩ := e
    by_cases hk : k = a
    · simpa [erase, hk] using ih
    · intro e he
      simp only [erase, hk, if_false, List.mem_cons] at he
      obtain rfl | he := he
      · exact hk
      · exact ih e he

/-- A store is seen by a read of that address and by no other, on any memory (20_memory.md R59). -/
@[simp] theorem read_write (m : Memory) (a : Nat) (b : Byte) (c : Nat) :
    (write font m a b).read font c = if a = c then b else m.read font c := by
  unfold write
  split
  · next h =>
    rw [read_erase]
    split
    · next hc => rw [h, hc]
    · rfl
  · rw [read_insert _ _ _ _ _ (erase_no_entry m a), read_erase]
    split <;> rfl

/-! ### Runs of bytes -/

/-- A run of stores is seen at the addresses it covers and nowhere else. -/
theorem read_storeBytes (m : Memory) (a : Nat) (bs : List Byte) (c : Nat) :
    (storeBytes font m a bs).read font c = if a ≤ c ∧ c < a + bs.length then bs.getD (c - a) 0#8 else m.read font c := by
  induction bs generalizing m a with
  | nil => simp [storeBytes, show ¬(a ≤ c ∧ c < a) by omega]
  | cons b bs ih =>
    rw [storeBytes, ih, read_write]
    by_cases hlo : a = c
    · subst hlo
      simp
    · by_cases hin : a + 1 ≤ c ∧ c < a + 1 + bs.length
      · have h2 : a ≤ c ∧ c < a + (b :: bs).length := by simp; omega
        have hs : c - a = (c - (a + 1)) + 1 := by omega
        rw [if_pos hin, if_pos h2, hs, List.getD_cons_succ]
      · have h2 : ¬(a ≤ c ∧ c < a + (b :: bs).length) := by simp; omega
        rw [if_neg hin, if_neg h2, if_neg hlo]

@[simp] theorem length_loadBytes (m : Memory) (a k : Nat) : (loadBytes font m a k).length = k := by
  induction k generalizing a with
  | zero => rfl
  | succ k ih => simp [loadBytes, ih]

/-- The bytes of a range, by position. -/
theorem getD_loadBytes (m : Memory) (a k j : Nat) (h : j < k) : (loadBytes font m a k).getD j 0#8 = m.read font (a + j) := by
  induction k generalizing a j with
  | zero => omega
  | succ k ih =>
    cases j with
    | zero => simp [loadBytes]
    | succ j =>
      rw [loadBytes, List.getD_cons_succ, ih (a + 1) j (by omega)]
      congr 1
      omega

/-- A loaded image is read back where it was placed; elsewhere memory is as reset leaves it (10_state.md R42). -/
theorem read_ofImage (a : Nat) (bs : List Byte) (c : Nat) :
    (ofImage font a bs).read font c = if a ≤ c ∧ c < a + bs.length then bs.getD (c - a) 0#8 else unlisted font c := by
  induction bs generalizing a with
  | nil => simp [ofImage, read, show ¬(a ≤ c ∧ c < a) by omega]
  | cons b bs ih =>
    have key : (ofImage font a (b :: bs)).read font c = if a = c then b else (ofImage font (a + 1) bs).read font c := by
      by_cases hb : b = unlisted font a
      · by_cases hc : a = c
        · subst hc
          rw [ofImage, if_pos hb, ih, if_neg (by omega), if_pos rfl, hb]
        · rw [ofImage, if_pos hb, if_neg hc]
      · rw [ofImage, if_neg hb, read]
    rw [key, ih]
    by_cases hlo : a = c
    · subst hlo
      simp
    · by_cases hin : a + 1 ≤ c ∧ c < a + 1 + bs.length
      · have h2 : a ≤ c ∧ c < a + (b :: bs).length := by simp; omega
        have hs : c - a = (c - (a + 1)) + 1 := by omega
        rw [if_neg hlo, if_pos hin, if_pos h2, hs, List.getD_cons_succ]
      · have h2 : ¬(a ≤ c ∧ c < a + (b :: bs).length) := by simp; omega
        rw [if_neg hlo, if_neg hin, if_neg h2]

/-! ### The canonical form -/

variable {font}

theorem wfFrom_cons (lo : Nat) (c : Nat) (b : Byte) (m : Memory) :
    wfFrom font lo ((c, b) :: m) = true ↔ lo ≤ c ∧ c < 4096 ∧ b ≠ unlisted font c ∧ wfFrom font (c + 1) m = true := by
  simp [wfFrom, and_assoc]

theorem wfFrom_mono {lo lo' : Nat} (h : lo' ≤ lo) {m : Memory} (hm : wfFrom font lo m = true) : wfFrom font lo' m = true := by
  cases m with
  | nil => rfl
  | cons e m =>
    obtain ⟨c, b⟩ := e
    rw [wfFrom_cons] at hm ⊢
    exact ⟨h.trans hm.1, hm.2⟩

theorem wfFrom_erase {lo : Nat} {m : Memory} (a : Nat) (hm : wfFrom font lo m = true) : wfFrom font lo (erase m a) = true := by
  induction m generalizing lo with
  | nil => rfl
  | cons e m ih =>
    obtain ⟨c, b⟩ := e
    rw [wfFrom_cons] at hm
    by_cases hc : c = a
    · rw [erase, if_pos hc]
      exact ih (wfFrom_mono (by omega) hm.2.2.2)
    · rw [erase, if_neg hc, wfFrom_cons]
      exact ⟨hm.1, hm.2.1, hm.2.2.1, ih hm.2.2.2⟩

theorem wfFrom_insert {lo : Nat} {m : Memory} {a : Nat} {b : Byte} (hm : wfFrom font lo m = true) (hlo : lo ≤ a) (ha : a < 4096)
    (hb : b ≠ unlisted font a) (hno : ∀ e ∈ m, e.1 ≠ a) : wfFrom font lo (insert m a b) = true := by
  induction m generalizing lo with
  | nil => simp [insert, wfFrom, hlo, ha, hb]
  | cons e m ih =>
    obtain ⟨c, d⟩ := e
    have hca : c ≠ a := hno (c, d) (by simp)
    rw [wfFrom_cons] at hm
    by_cases hlt : a < c
    · rw [insert, if_pos hlt, wfFrom_cons, wfFrom_cons]
      exact ⟨hlo, ha, hb, by omega, hm.2⟩
    · rw [insert, if_neg hlt, wfFrom_cons]
      exact ⟨hm.1, hm.2.1, hm.2.2.1, ih hm.2.2.2 (by omega) fun e he => hno e (by simp [he])⟩

/-- A store in bounds keeps the canonical form. -/
theorem wf_write {m : Memory} {a : Nat} (b : Byte) (hm : m.wf font = true) (ha : a < 4096) : (write font m a b).wf font = true := by
  unfold write wf at *
  split
  · exact wfFrom_erase a hm
  · next h => exact wfFrom_insert (wfFrom_erase a hm) (Nat.zero_le a) ha h (erase_no_entry m a)

/-- A run of stores in bounds keeps the canonical form. -/
theorem wf_storeBytes {m : Memory} {a : Nat} {bs : List Byte} (hm : m.wf font = true) (h : a + bs.length ≤ 4096) :
    (storeBytes font m a bs).wf font = true := by
  induction bs generalizing m a with
  | nil => exact hm
  | cons b bs ih =>
    simp only [List.length_cons] at h
    exact ih (wf_write b hm (by omega)) (by omega)

theorem wfFrom_ofImage {a : Nat} {bs : List Byte} (h : a + bs.length ≤ 4096) : wfFrom font a (ofImage font a bs) = true := by
  induction bs generalizing a with
  | nil => rfl
  | cons b bs ih =>
    simp only [List.length_cons] at h
    have hrest : wfFrom font (a + 1) (ofImage font (a + 1) bs) = true := ih (by omega)
    by_cases hb : b = unlisted font a
    · rw [ofImage, if_pos hb]
      exact wfFrom_mono (by omega) hrest
    · rw [ofImage, if_neg hb, wfFrom_cons]
      exact ⟨le_refl a, by omega, hb, hrest⟩

/-- A loaded image is in canonical form. -/
theorem wf_ofImage {a : Nat} {bs : List Byte} (h : a + bs.length ≤ 4096) : (ofImage font a bs).wf font = true :=
  wfFrom_mono (Nat.zero_le a) (wfFrom_ofImage h)

variable (font)

/-- Memory as reset leaves it is in canonical form. -/
theorem wf_nil : wf font [] = true := rfl

/-- Reset puts the font at 0x000 to 0x04F (10_state.md R42). -/
theorem unlisted_font {a : Nat} (h : a < 80) : unlisted font a = font[a] := by simp [unlisted, h]

/-- Memory beyond the font is zero after reset (R42). -/
theorem unlisted_beyond_font {a : Nat} (h : 80 ≤ a) : unlisted font a = 0#8 := by
  simp [unlisted, Nat.not_lt.mpr h]

end Sys2Proof.Machine.Memory
end

