-- ==== Sys2Proof/Laws/Ops.lean ====
section
/-! SUPPORT. One lemma per shared operation that says everything it can do; later proofs cite these instead of unfolding the
operation. -/

namespace Sys2Proof.Machine

/-! ### Ranges of registers -/

@[simp] theorem length_regBytes (s : State) (r k : Nat) : (s.regBytes r k).length = k := by
  induction k generalizing r with
  | zero => rfl
  | succ k ih => simp [State.regBytes, ih]

/-- The bytes of a range of registers, by position. -/
theorem getD_regBytes (s : State) (r k j : Nat) (h : j < k) :
    (s.regBytes r k).getD j 0#8 = s.getV (BitVec.ofNat 4 (r + j)) := by
  induction k generalizing r j with
  | zero => omega
  | succ k ih =>
    cases j with
    | zero => simp [State.regBytes]
    | succ j =>
      rw [State.regBytes, List.getD_cons_succ, ih (r + 1) j (by omega)]
      congr 2
      omega

/-- A range of register writes is seen at the registers it covers and at no other. -/
theorem getV_setRegs (s : State) (r : Nat) (bs : List Byte) (h : r + bs.length ≤ 16) (q : Nibble) :
    (s.setRegs r bs).getV q =
      if r ≤ q.toNat ∧ q.toNat < r + bs.length then bs.getD (q.toNat - r) 0#8 else s.getV q := by
  induction bs generalizing s r with
  | nil => simp [State.setRegs, show ¬(r ≤ q.toNat ∧ q.toNat < r) by omega]
  | cons b bs ih =>
    simp only [List.length_cons] at h ⊢
    have hr : (BitVec.ofNat 4 r = q) ↔ r = q.toNat := by
      rw [← BitVec.toNat_inj, BitVec.toNat_ofNat, Nat.mod_eq_of_lt (by omega)]
    rw [State.setRegs, ih _ _ (by omega), getV_setV]
    by_cases hq : r = q.toNat
    · rw [if_neg (by omega), if_pos (hr.mpr hq), if_pos (by omega), ← hq]
      simp
    · by_cases hin : r + 1 ≤ q.toNat ∧ q.toNat < r + 1 + bs.length
      · have hs : q.toNat - r = (q.toNat - (r + 1)) + 1 := by omega
        rw [if_pos hin, if_pos (by omega), hs, List.getD_cons_succ]
      · rw [if_neg hin, if_neg (fun e => hq (hr.mp e)), if_neg (by omega)]

theorem rangeCount_le (x : Nibble) : rangeCount x ≤ 16 := by
  have := regIndex_lt x
  unfold rangeCount
  omega

/-- The destinations of FX65 are `V[0..X]` (44_index_memory.md R156). -/
theorem mem_destRegs_ldRegs (x r : Nibble) : r ∈ destRegs (.ldRegs x) ↔ r.toNat ≤ x.toNat := by
  simp only [destRegs, List.mem_map, List.mem_range, rangeCount]
  constructor
  · rintro ⟨a, ha, rfl⟩
    rw [BitVec.toNat_ofNat]
    omega
  · intro h
    exact ⟨r.toNat, by omega, by simp⟩

/-! ### Ranges of memory -/

/-- A run of stores is seen at the addresses it covers and nowhere else (20_memory.md R54, R59). -/
theorem byteAt_storeBytes (s : State) (a : Nat) (bs : List Byte) (c : Nat) :
    (s.storeBytes a bs).byteAt c = if a ≤ c ∧ c < a + bs.length then bs.getD (c - a) 0#8 else s.byteAt c :=
  Memory.read_storeBytes s.font s.mem a bs c

@[simp] theorem length_loadBytes (s : State) (a k : Nat) : (s.loadBytes a k).length = k :=
  Memory.length_loadBytes s.font s.mem a k

/-- The bytes of a range of memory, by position. -/
theorem getD_loadBytes (s : State) (a k j : Nat) (h : j < k) : (s.loadBytes a k).getD j 0#8 = s.byteAt (a + j) :=
  Memory.getD_loadBytes s.font s.mem a k j h

/-- A range read depends on `MEM` and the font alone. -/
@[simp] theorem loadBytes_advance (s : State) (a k : Nat) : s.advance.loadBytes a k = s.loadBytes a k := rfl

/-! ### The stack -/

/-- `push` raises on a full stack, and else writes one entry and counts it (10_state.md R29). -/
theorem push_cases (s : State) (v pc0 : Word) :
    (s.sp.val = 16 ∧ s.push v pc0 = .error (.stackOverflow pc0)) ∨
      ∃ h : s.sp.val < 16, s.push v pc0 =
        .ok { s with stk := s.stk.set s.sp.val v h, sp := ⟨s.sp.val + 1, Nat.succ_lt_succ h⟩ } := by
  by_cases h : s.sp.val = 16
  · exact .inl ⟨h, by simp [State.push, h]⟩
  · have hlt : s.sp.val < 16 := by have := s.sp.isLt; omega
    exact .inr ⟨hlt, by simp [State.push, h]⟩

/-- `pop` raises on an empty stack, and else answers the top entry and counts one fewer (R30). -/
theorem pop_cases (s : State) (pc0 : Word) :
    (s.sp.val = 0 ∧ s.pop pc0 = .error (.stackUnderflow pc0)) ∨
      s.sp.val ≠ 0 ∧ ∃ h : s.sp.val - 1 < 16, s.pop pc0 =
        .ok (s.stk[s.sp.val - 1], { s with sp := ⟨s.sp.val - 1, Nat.lt_succ_of_lt h⟩ }) := by
  by_cases h : s.sp.val = 0
  · exact .inl ⟨h, by simp [State.pop, h]⟩
  · have hlt : s.sp.val - 1 < 16 := by have := s.sp.isLt; omega
    exact .inr ⟨h, hlt, by simp [State.pop, h]⟩

/-! ### Bounds and faults -/

/-- The range check passes exactly when the range is empty or ends below 4096 (20_memory.md R56). -/
theorem checkRange_ok {base len : Nat} {pc0 : Word} (h : len = 0 ∨ base + len ≤ 4096) :
    checkRange base len pc0 = .ok () := by
  unfold checkRange
  rw [if_neg (by omega)]

/-- The range check raises on a range that reaches 4096. -/
theorem checkRange_error {base len : Nat} {pc0 : Word} (h : 0 < len) (h' : 4096 < base + len) :
    checkRange base len pc0 = .error (.addressOutOfRange 0x1000#16 pc0) := by
  unfold checkRange
  rw [if_pos (by omega)]

theorem checkRange_cases (base len : Nat) (pc0 : Word) :
    ((len = 0 ∨ base + len ≤ 4096) ∧ checkRange base len pc0 = .ok ()) ∨
      (0 < len ∧ 4096 < base + len ∧ checkRange base len pc0 = .error (.addressOutOfRange 0x1000#16 pc0)) := by
  by_cases h : len = 0 ∨ base + len ≤ 4096
  · exact .inl ⟨h, checkRange_ok h⟩
  · exact .inr ⟨by omega, by omega, checkRange_error (by omega) (by omega)⟩

/-- A rule that does not raise gives its state. -/
theorem runRule_ok {s t : State} {rule : State → Except FaultRecord State} (h : rule s.advance = .ok t) :
    runRule s rule = .next t := by simp [runRule, h]

/-- A rule that raises gives the state at entry with the fault taken (60_exceptions.md R206). -/
theorem runRule_error {s : State} {rule : State → Except FaultRecord State} {f : FaultRecord}
    (h : rule s.advance = .error f) : runRule s rule = .next (s.takeFault f) := by simp [runRule, h]

/-! ### Fetch and the parts of a step -/

/-- Fetch raises beyond 0xFFE and else reads two bytes big-endian (40_step_cycle.md R94). -/
theorem fetch_cases (s : State) :
    (4096 ≤ s.pc.toNat ∧ s.fetch = .error (.addressOutOfRange s.pc s.pc)) ∨
      (s.pc.toNat = 0xFFF ∧ s.fetch = .error (.addressOutOfRange 0x1000#16 s.pc)) ∨
      (s.pc.toNat ≤ 0xFFE ∧ s.fetch = .ok (wordOfBytes (s.byteAt s.pc.toNat) (s.byteAt (s.pc.toNat + 1)))) := by
  unfold State.fetch
  by_cases h1 : 4096 ≤ s.pc.toNat
  · exact .inl ⟨h1, by rw [if_pos h1]⟩
  · by_cases h2 : 4096 ≤ s.pc.toNat + 1
    · have he : s.pc = 0xFFF#16 := by
        apply BitVec.eq_of_toNat_eq
        simp
        omega
      refine .inr (.inl ⟨by omega, ?_⟩)
      rw [if_neg h1, if_pos h2, he]
      rfl
    · exact .inr (.inr ⟨by omega, by rw [if_neg h1, if_neg h2]⟩)

theorem awaitStep_some {s : State} {k : Nibble} (h : s.key = some k) :
    s.awaitStep = { s.setV s.wx (k.setWidth 8) with mode := .running, outcome := .ok } := by simp [State.awaitStep, h]

theorem awaitStep_none {s : State} (h : s.key = none) : s.awaitStep = { s with outcome := .blocked } := by
  simp [State.awaitStep, h]

theorem haltedStep_some {s : State} {f : FaultRecord} (h : s.fault = some f) :
    s.haltedStep = .next { s with outcome := .fault f } := by simp [State.haltedStep, h]

theorem haltedStep_none {s : State} (h : s.fault = none) : s.haltedStep = .fault .haltedWithoutRecord := by
  simp [State.haltedStep, h]

end Sys2Proof.Machine
end

