-- ==== Sys2Proof/Laws/Display.lean ====
section
/-! SUPPORT. What drawing does to each pixel and to the collision flag (45_display.md R160 to R164): one lemma for a bit, one
for a row, one for a sprite. -/

namespace Sys2Proof.Machine

/-! ### One pixel -/

/-- A flip changes its own pixel and no other. -/
theorem pixel_flipPixel (fb : FrameBuffer) (x x' : Fin 64) (y y' : Fin 32) :
    pixel (flipPixel fb x y) x' y' = (pixel fb x' y' ^^ decide (x = x' ∧ y = y')) := by
  unfold pixel flipPixel
  by_cases hy : y = y'
  · subst hy
    have hx : (x'.val - x.val = 0 ∧ x.val ≤ x'.val) ↔ x = x' := by
      constructor
      · intro h
        exact Fin.ext (by omega)
      · rintro rfl
        simp
    by_cases h : x = x'
    · subst h
      simp
    · have hlt : ¬(x'.val < x.val) → x'.val - x.val ≠ 0 := fun h1 h2 => h (hx.mp ⟨h2, by omega⟩)
      by_cases h1 : x'.val < x.val
      · simp [h, h1]
      · simp [h, h1, hlt h1]
  · have hval : y.val ≠ y'.val := fun e => hy (Fin.ext e)
    simp [hy, hval]

/-- Two columns of one sprite row never fall on the same pixel (R164). -/
theorem wrapX_inj {x0 c c' : Nat} (hc : c < 64) (hc' : c' < 64) (h : wrapX (x0 + c) = wrapX (x0 + c')) : c = c' := by
  have h' := congrArg Fin.val h
  simp only [wrapX, Fin.ofNat] at h'
  omega

/-- Two rows of one sprite never fall on the same pixel (R164). -/
theorem wrapY_inj {y0 r r' : Nat} (hr : r < 32) (hr' : r' < 32) (h : wrapY (y0 + r) = wrapY (y0 + r')) : r = r' := by
  have h' := congrArg Fin.val h
  simp only [wrapY, Fin.ofNat] at h'
  omega

/-! ### One row -/

/-- The first `k` columns of a row, as `drawRow` draws them. -/
def drawCols (d : Drawing) (x0 y : Nat) (b : Byte) (k : Nat) : Drawing :=
  (List.range k).foldl (fun d col => if spriteBit b col then drawBit d (x0 + col) y else d) d

theorem drawCols_succ (d : Drawing) (x0 y : Nat) (b : Byte) (k : Nat) :
    drawCols d x0 y b (k + 1) =
      if spriteBit b k then drawBit (drawCols d x0 y b k) (x0 + k) y else drawCols d x0 y b k := by
  simp [drawCols, List.range_succ]

/-- A pixel differs after `k` columns exactly when one of their set bits falls on it; a collision is a set bit on a pixel
that was on. -/
theorem drawCols_spec (d : Drawing) (x0 y : Nat) (b : Byte) (k : Nat) (hk : k ≤ 64) :
    (∀ px py, (pixel (drawCols d x0 y b k).1 px py ≠ pixel d.1 px py ↔
      ∃ col, col < k ∧ spriteBit b col = true ∧ px = wrapX (x0 + col) ∧ py = wrapY y)) ∧
    ((drawCols d x0 y b k).2 = true ↔ d.2 = true ∨
      ∃ col, col < k ∧ spriteBit b col = true ∧ pixel d.1 (wrapX (x0 + col)) (wrapY y) = true) := by
  induction k with
  | zero => simp [drawCols]
  | succ k ih =>
    obtain ⟨ihp, ihc⟩ := ih (by omega)
    rw [drawCols_succ]
    by_cases hb : spriteBit b k = true
    · rw [if_pos hb]
      have hsame : pixel (drawCols d x0 y b k).1 (wrapX (x0 + k)) (wrapY y) = pixel d.1 (wrapX (x0 + k)) (wrapY y) := by
        by_contra hne
        obtain ⟨col, hcol, -, hx, -⟩ := (ihp _ _).mp hne
        have := wrapX_inj (by omega) (by omega) hx
        omega
      refine ⟨fun px py => ?_, ?_⟩
      · rw [drawBit, pixel_flipPixel]
        by_cases hhit : wrapX (x0 + k) = px ∧ wrapY y = py
        · obtain ⟨rfl, rfl⟩ := hhit
          rw [hsame]
          simp only [and_self, decide_true, Bool.xor_true, ne_eq, Bool.not_eq_self, not_false_eq_true, true_iff]
          exact ⟨k, Nat.lt_succ_self k, hb, rfl, trivial⟩
        · rw [decide_eq_false hhit, Bool.xor_false, ihp]
          constructor
          · rintro ⟨col, hcol, h⟩
            exact ⟨col, by omega, h⟩
          · rintro ⟨col, hcol, hset, rfl, rfl⟩
            have : col ≠ k := by
              rintro rfl
              exact hhit ⟨rfl, rfl⟩
            exact ⟨col, by omega, hset, rfl, rfl⟩
      · simp only [drawBit, hsame, Bool.or_eq_true, ihc]
        constructor
        · rintro ((h | ⟨col, hcol, h⟩) | h)
          · exact .inl h
          · exact .inr ⟨col, by omega, h⟩
          · exact .inr ⟨k, Nat.lt_succ_self k, hb, h⟩
        · rintro (h | ⟨col, hcol, hset, hon⟩)
          · exact .inl (.inl h)
          · by_cases hck : col = k
            · subst hck
              exact .inr hon
            · exact .inl (.inr ⟨col, by omega, hset, hon⟩)
    · rw [if_neg hb]
      have hcol : ∀ {col}, col < k + 1 → spriteBit b col = true → col < k := by
        intro col h1 h2
        have : col ≠ k := by
          rintro rfl
          exact hb h2
        omega
      refine ⟨fun px py => ?_, ?_⟩
      · rw [ihp]
        exact ⟨fun ⟨c, h1, h2⟩ => ⟨c, by omega, h2⟩, fun ⟨c, h1, h2⟩ => ⟨c, hcol h1 h2.1, h2⟩⟩
      · rw [ihc]
        exact or_congr Iff.rfl ⟨fun ⟨c, h1, h2⟩ => ⟨c, by omega, h2⟩, fun ⟨c, h1, h2⟩ => ⟨c, hcol h1 h2.1, h2⟩⟩

/-! ### A sprite -/

/-- Pixel `(px, py)` lies under a set bit of the sprite `bs` drawn at `(x0, y0)` (R160, R162). -/
def Covers (x0 y0 : Nat) (bs : List Byte) (px : Fin 64) (py : Fin 32) : Prop :=
  ∃ row col, row < bs.length ∧ col < 8 ∧ spriteBit (bs.getD row 0#8) col = true ∧
    px = wrapX (x0 + col) ∧ py = wrapY (y0 + row)

/-- Drawing a sprite changes exactly the pixels under its set bits, and the flag tells whether one of them was on
(R162, R163). -/
theorem drawRows_spec (d : Drawing) (x0 y0 : Nat) (bs : List Byte) (hlen : bs.length ≤ 32) :
    (∀ px py, (pixel (drawRows d x0 y0 bs).1 px py ≠ pixel d.1 px py ↔ Covers x0 y0 bs px py)) ∧
    ((drawRows d x0 y0 bs).2 = true ↔ d.2 = true ∨ ∃ px py, Covers x0 y0 bs px py ∧ pixel d.1 px py = true) := by
  induction bs generalizing d y0 with
  | nil => simp [drawRows, Covers]
  | cons b bs ih =>
    simp only [List.length_cons] at hlen
    have hrow : drawRow d x0 y0 b = drawCols d x0 y0 b 8 := rfl
    obtain ⟨rp, rc⟩ := drawCols_spec d x0 y0 b 8 (by omega)
    obtain ⟨sp, sc⟩ := ih (drawCols d x0 y0 b 8) (y0 + 1) (by omega)
    rw [drawRows, hrow]
    -- a set bit of the first row, or one of the rows below
    have split : ∀ px py, Covers x0 y0 (b :: bs) px py ↔
        (∃ col, col < 8 ∧ spriteBit b col = true ∧ px = wrapX (x0 + col) ∧ py = wrapY y0) ∨
          Covers x0 (y0 + 1) bs px py := by
      intro px py
      constructor
      · rintro ⟨row, col, hr, hc, hset, hx, hy⟩
        cases row with
        | zero => exact .inl ⟨col, hc, by simpa using hset, hx, by simpa using hy⟩
        | succ row =>
          refine .inr ⟨row, col, by simpa using hr, hc, by simpa using hset, hx, ?_⟩
          rw [hy, show y0 + (row + 1) = y0 + 1 + row by omega]
      · rintro (⟨col, hc, hset, hx, hy⟩ | ⟨row, col, hr, hc, hset, hx, hy⟩)
        · exact ⟨0, col, by simp, hc, by simpa using hset, hx, by simpa using hy⟩
        · refine ⟨row + 1, col, by simpa using hr, hc, by simpa using hset, hx, ?_⟩
          rw [hy, show y0 + (row + 1) = y0 + 1 + row by omega]
    -- the two cases exclude each other: the rows are distinct
    have excl : ∀ {px py}, (∃ col, col < 8 ∧ spriteBit b col = true ∧ px = wrapX (x0 + col) ∧ py = wrapY y0) →
        ¬Covers x0 (y0 + 1) bs px py := by
      rintro px py ⟨_, _, _, _, hy⟩ ⟨row, _, hr, _, _, _, hy'⟩
      have h : wrapY (y0 + 0) = wrapY (y0 + (row + 1)) := by
        rw [Nat.add_zero, ← hy, hy', show y0 + (row + 1) = y0 + 1 + row by omega]
      have := wrapY_inj (by omega) (by omega) h
      omega
    have keep : ∀ {px py}, Covers x0 (y0 + 1) bs px py →
        pixel (drawCols d x0 y0 b 8).1 px py = pixel d.1 px py := by
      intro px py hcov
      by_contra hne
      exact excl ((rp px py).mp hne) hcov
    refine ⟨fun px py => ?_, ?_⟩
    · rw [split]
      by_cases hcov : Covers x0 (y0 + 1) bs px py
      · rw [← keep hcov]
        exact ⟨fun _ => .inr hcov, fun _ => (sp px py).mpr hcov⟩
      · have hsame : pixel (drawRows (drawCols d x0 y0 b 8) x0 (y0 + 1) bs).1 px py =
            pixel (drawCols d x0 y0 b 8).1 px py := by
          by_contra hne
          exact hcov ((sp px py).mp hne)
        rw [hsame, rp]
        exact ⟨.inl, fun h => h.resolve_right hcov⟩
    · rw [sc, rc]
      constructor
      · rintro ((h | ⟨col, hc, hset, hon⟩) | ⟨px, py, hcov, hon⟩)
        · exact .inl h
        · exact .inr ⟨_, _, (split _ _).mpr (.inl ⟨col, hc, hset, rfl, rfl⟩), hon⟩
        · exact .inr ⟨px, py, (split _ _).mpr (.inr hcov), by rw [← keep hcov]; exact hon⟩
      · rintro (h | ⟨px, py, hcov, hon⟩)
        · exact .inl (.inl h)
        · rcases (split px py).mp hcov with ⟨col, hc, hset, rfl, rfl⟩ | hcov
          · exact .inl (.inr ⟨col, hc, hset, hon⟩)
          · exact .inr ⟨px, py, hcov, by rw [keep hcov]; exact hon⟩

end Sys2Proof.Machine
end

