-- ==== Sys2Proof/Laws/Exec.lean ====
section
/-! SUPPORT. For each meaning that can raise, what it answers on each side of its one check; for the step, the cases a next
state can come from. The other meanings are one `.next` each and need no lemma. -/

namespace Sys2Proof.Machine

/-! ### Flow -/

theorem execRet_error {s : State} (h : s.sp.val = 0) : execRet s = .next (s.takeFault (.stackUnderflow s.pc)) := by
  refine runRule_error ?_
  rcases pop_cases s.advance s.pc with ⟨-, hp⟩ | ⟨h0, -⟩
  · simp [hp, bind, Except.bind]
  · exact absurd h h0

theorem execRet_ok {s : State} (h : s.sp.val ≠ 0) : ∃ hlt : s.sp.val - 1 < 16, execRet s =
    .next { s.advance with pc := s.stk[s.sp.val - 1], sp := ⟨s.sp.val - 1, Nat.lt_succ_of_lt hlt⟩ } := by
  rcases pop_cases s.advance s.pc with ⟨h0, -⟩ | ⟨-, hlt, hp⟩
  · exact absurd h0 h
  · refine ⟨hlt, runRule_ok ?_⟩
    simp only [hp, bind, Except.bind]
    rfl

theorem execCall_error {s : State} (nnn : Addr12) (h : s.sp.val = 16) :
    execCall nnn s = .next (s.takeFault (.stackOverflow s.pc)) := by
  refine runRule_error ?_
  rcases push_cases s.advance s.advance.pc s.pc with ⟨-, hp⟩ | ⟨hlt, -⟩
  · simp only [hp, bind, Except.bind]
  · exact absurd hlt (by simp [h])

theorem execCall_ok {s : State} (nnn : Addr12) (h : s.sp.val ≠ 16) : ∃ hlt : s.sp.val < 16, execCall nnn s =
    .next { s.advance with
      pc := addrOperand nnn
      stk := s.stk.set s.sp.val (s.pc + 2#16) hlt
      sp := ⟨s.sp.val + 1, Nat.succ_lt_succ hlt⟩ } := by
  rcases push_cases s.advance s.advance.pc s.pc with ⟨h0, -⟩ | ⟨hlt, hp⟩
  · exact absurd h0 h
  · refine ⟨hlt, runRule_ok ?_⟩
    simp only [hp, bind, Except.bind]
    rfl

/-! ### Transfers and draw: the range check, then the effect -/

theorem execLdBcd_error {s : State} (x : Nibble) (h : 4096 < s.base + 3) :
    execLdBcd x s = .next (s.takeFault (.addressOutOfRange 0x1000#16 s.pc)) := by
  refine runRule_error ?_
  have hc := checkRange_error (pc0 := s.pc) (show 0 < 3 by omega) h
  simp [State.base] at hc
  simp [State.base, hc, bind, Except.bind]

theorem execLdBcd_ok {s : State} (x : Nibble) (h : s.base + 3 ≤ 4096) : execLdBcd x s =
    .next (s.advance.storeBytes s.base (bcdDigits (s.getV x))) := by
  refine runRule_ok ?_
  have hc := checkRange_ok (pc0 := s.pc) (.inr h)
  simp [State.base] at hc
  simp [State.base, hc, bind, Except.bind]

theorem execStRegs_error {s : State} (x : Nibble) (h : 4096 < s.base + rangeCount x) :
    execStRegs x s = .next (s.takeFault (.addressOutOfRange 0x1000#16 s.pc)) := by
  refine runRule_error ?_
  have hc := checkRange_error (pc0 := s.pc) (show 0 < rangeCount x by simp [rangeCount]) h
  simp [State.base] at hc
  simp [State.base, hc, bind, Except.bind]

theorem execStRegs_ok {s : State} (x : Nibble) (h : s.base + rangeCount x ≤ 4096) : execStRegs x s =
    .next (s.advance.storeBytes s.base (s.regRange x)) := by
  refine runRule_ok ?_
  have hc := checkRange_ok (pc0 := s.pc) (.inr h)
  have hr : s.advance.regRange x = s.regRange x := by
    unfold State.regRange
    generalize 0 = r
    generalize rangeCount x = k
    induction k generalizing r with
    | zero => rfl
    | succ k ih => simp [State.regBytes, ih]
  simp [State.base] at hc
  simp [State.base, hc, hr, bind, Except.bind]

theorem execLdRegs_error {s : State} (x : Nibble) (h : 4096 < s.base + rangeCount x) :
    execLdRegs x s = .next (s.takeFault (.addressOutOfRange 0x1000#16 s.pc)) := by
  refine runRule_error ?_
  have hc := checkRange_error (pc0 := s.pc) (show 0 < rangeCount x by simp [rangeCount]) h
  simp [State.base] at hc
  simp [State.base, hc, bind, Except.bind]

theorem execLdRegs_ok {s : State} (x : Nibble) (h : s.base + rangeCount x ≤ 4096) : execLdRegs x s =
    .next (s.advance.setRegs 0 (s.loadBytes s.base (rangeCount x))) := by
  refine runRule_ok ?_
  have hc := checkRange_ok (pc0 := s.pc) (.inr h)
  simp [State.base] at hc
  simp [State.base, hc, bind, Except.bind]

/-- The drawing DXYN makes of the display it finds. -/
def drawing (s : State) (x y n : Nibble) : Drawing :=
  drawRows (s.fb, false) (s.getV x).toNat (s.getV y).toNat (s.loadBytes s.base n.toNat)

theorem execDrw_error {s : State} (x y n : Nibble) (h0 : 0 < n.toNat) (h : 4096 < s.base + n.toNat) :
    execDrw x y n s = .next (s.takeFault (.addressOutOfRange 0x1000#16 s.pc)) := by
  refine runRule_error ?_
  have hc := checkRange_error (pc0 := s.pc) h0 h
  simp [State.base] at hc
  simp [State.base, hc, bind, Except.bind]

theorem execDrw_ok {s : State} (x y n : Nibble) (h : n.toNat = 0 ∨ s.base + n.toNat ≤ 4096) : execDrw x y n s =
    .next ({ s.advance with fb := (drawing s x y n).1 }.setFlag (drawing s x y n).2) := by
  refine runRule_ok ?_
  have hc := checkRange_ok (pc0 := s.pc) h
  simp [State.base] at hc
  simp [State.base, drawing, hc, bind, Except.bind]

/-! ### The step -/

/-- Before the first successful load a step is refused (70_reset_and_hazards.md R233). -/
theorem step_unlaunched {s : State} (hl : s.launched = false) : step s = .refused .stepBeforeLoad := by simp [step, hl]

theorem launched_of_step {s t : State} (h : step s = .next t) : s.launched = true := by
  cases hl : s.launched with
  | true => rfl
  | false => simp [step_unlaunched hl] at h

/-- Where the next state of a step comes from (40_step_cycle.md R107). -/
theorem step_cases {s t : State} (h : step s = .next t) :
    (s.mode = .halted ∧ ∃ f, s.fault = some f ∧ t = { s with outcome := .fault f }) ∨
    (s.mode = .awaitingKey ∧ t = s.awaitStep) ∨
    (s.mode = .running ∧ ∃ f, s.fetch = .error f ∧ t = s.takeFault f) ∨
    (s.mode = .running ∧ ∃ w i, s.fetch = .ok w ∧ decode w = .instr i ∧ exec i s = .next t) ∨
    (s.mode = .running ∧ ∃ w u, s.fetch = .ok w ∧ decode w = .unknown u ∧ t = s.unknownStep u) := by
  have hl := launched_of_step h
  unfold step at h
  simp only [hl] at h
  cases hm : s.mode with
  | halted =>
    rw [hm] at h
    cases hf : s.fault with
    | none => simp [haltedStep_none hf] at h
    | some f =>
      simp only [haltedStep_some hf, Host.Outcome.next.injEq] at h
      exact .inl ⟨rfl, f, rfl, by rw [← hm, ← hf]; exact h.symm⟩
  | awaitingKey =>
    rw [hm] at h
    simp only [Host.Outcome.next.injEq] at h
    exact .inr (.inl ⟨rfl, h.symm⟩)
  | running =>
    rw [hm] at h
    cases hf : s.fetch with
    | error f =>
      simp only [hf, Host.Outcome.next.injEq] at h
      exact .inr (.inr (.inl ⟨rfl, f, rfl, h.symm⟩))
    | ok w =>
      cases hd : decode w with
      | instr i =>
        simp only [hf, hd] at h
        exact .inr (.inr (.inr (.inl ⟨rfl, w, i, rfl, hd, h⟩)))
      | unknown u =>
        simp only [hf, hd, Host.Outcome.next.injEq] at h
        exact .inr (.inr (.inr (.inr ⟨rfl, w, u, rfl, hd, h.symm⟩)))

/-- A running step that fetches and decodes an instruction is `exec` of it. -/
theorem step_instr {s : State} {w : Word} {i : Instr} (hl : s.launched = true) (hm : s.mode = .running) (hf : s.fetch = .ok w)
    (hd : decode w = .instr i) : step s = exec i s := by simp [step, hl, hm, hf, hd]

theorem step_unknown {s : State} {w u : Word} (hl : s.launched = true) (hm : s.mode = .running) (hf : s.fetch = .ok w)
    (hd : decode w = .unknown u) : step s = .next (s.unknownStep u) := by simp [step, hl, hm, hf, hd]

theorem step_fetchFault {s : State} {f : FaultRecord} (hl : s.launched = true) (hm : s.mode = .running) (hf : s.fetch = .error f) :
    step s = .next (s.takeFault f) := by simp [step, hl, hm, hf]

theorem step_halted {s : State} {f : FaultRecord} (hl : s.launched = true) (hm : s.mode = .halted) (hf : s.fault = some f) :
    step s = .next { s with outcome := .fault f } := by simp [step, hl, hm, haltedStep_some hf]

theorem step_awaiting {s : State} (hl : s.launched = true) (hm : s.mode = .awaitingKey) : step s = .next s.awaitStep := by simp [step, hl, hm]

/-! ### A placed word is the next one fetched (log 30) -/

theorem toNat_fetchPoint_le (s : State) : s.fetchPoint.toNat ≤ 0xFFE := by
  unfold State.fetchPoint
  split
  · assumption
  · decide

theorem fetch_placeWord (s : State) (w : Word) : (s.placeWord w).fetch = .ok w := by
  have hle := toNat_fetchPoint_le s
  rcases fetch_cases (s.placeWord w) with ⟨h, -⟩ | ⟨h, -⟩ | ⟨-, h⟩
  · change 4096 ≤ s.fetchPoint.toNat at h
    omega
  · change s.fetchPoint.toNat = 0xFFF at h
    omega
  · rw [h]
    have hread (a : Nat) : (s.placeWord w).byteAt a =
        (s.storeBytes s.fetchPoint.toNat [hiByte w, loByte w]).byteAt a := rfl
    rw [hread, hread, byteAt_storeBytes, byteAt_storeBytes]
    simp [State.placeWord]

/-- A step of a machine with a word placed runs that word. -/
theorem step_placeWord {w : Word} {i : Instr} (s : State) (h : decode w = .instr i) :
    step (s.placeWord w) = exec i (s.placeWord w) := step_instr rfl rfl (fetch_placeWord s w) h

end Sys2Proof.Machine
end

