-- ==== Sys2Proof/Laws/PerInstr.lean ====
section
/-! SUPPORT. Per instruction: its word selects its own row of the opcode table (30_encoding.md R74). -/

namespace Sys2Proof.Laws.RowMatch

/-- The encoding of an instruction selects the row the table has for it. -/
def Statement (i : Instr) : Prop := ∃ r, rows[rowIndex i]? = some r ∧ selects (encode i) r = true

theorem cls : Statement .cls := ⟨_, rfl, rfl⟩

theorem ret : Statement .ret := ⟨_, rfl, rfl⟩

theorem jp (nnn : Addr12) : Statement (.jp nnn) := by
  refine ⟨_, rfl, ?_⟩
  simp [selects, encode, and_F000]
  rfl

theorem call (nnn : Addr12) : Statement (.call nnn) := by
  refine ⟨_, rfl, ?_⟩
  simp [selects, encode, and_F000]
  rfl

theorem seI (x : Nibble) (nn : Byte) : Statement (.seI x nn) := by
  refine ⟨_, rfl, ?_⟩
  simp [selects, encode, and_F000]
  rfl

theorem sneI (x : Nibble) (nn : Byte) : Statement (.sneI x nn) := by
  refine ⟨_, rfl, ?_⟩
  simp [selects, encode, and_F000]
  rfl

theorem seR (x y : Nibble) : Statement (.seR x y) := by
  refine ⟨_, rfl, ?_⟩
  simp [selects, encode, and_F00F]
  rfl

theorem ldI (x : Nibble) (nn : Byte) : Statement (.ldI x nn) := by
  refine ⟨_, rfl, ?_⟩
  simp [selects, encode, and_F000]
  rfl

theorem addI (x : Nibble) (nn : Byte) : Statement (.addI x nn) := by
  refine ⟨_, rfl, ?_⟩
  simp [selects, encode, and_F000]
  rfl

theorem ldR (x y : Nibble) : Statement (.ldR x y) := by
  refine ⟨_, rfl, ?_⟩
  simp [selects, encode, and_F00F]
  rfl

theorem orR (x y : Nibble) : Statement (.orR x y) := by
  refine ⟨_, rfl, ?_⟩
  simp [selects, encode, and_F00F]
  rfl

theorem andR (x y : Nibble) : Statement (.andR x y) := by
  refine ⟨_, rfl, ?_⟩
  simp [selects, encode, and_F00F]
  rfl

theorem xorR (x y : Nibble) : Statement (.xorR x y) := by
  refine ⟨_, rfl, ?_⟩
  simp [selects, encode, and_F00F]
  rfl

theorem addR (x y : Nibble) : Statement (.addR x y) := by
  refine ⟨_, rfl, ?_⟩
  simp [selects, encode, and_F00F]
  rfl

theorem sub (x y : Nibble) : Statement (.sub x y) := by
  refine ⟨_, rfl, ?_⟩
  simp [selects, encode, and_F00F]
  rfl

theorem shr (x y : Nibble) : Statement (.shr x y) := by
  refine ⟨_, rfl, ?_⟩
  simp [selects, encode, and_F00F]
  rfl

theorem subn (x y : Nibble) : Statement (.subn x y) := by
  refine ⟨_, rfl, ?_⟩
  simp [selects, encode, and_F00F]
  rfl

theorem shl (x y : Nibble) : Statement (.shl x y) := by
  refine ⟨_, rfl, ?_⟩
  simp [selects, encode, and_F00F]
  rfl

theorem sneR (x y : Nibble) : Statement (.sneR x y) := by
  refine ⟨_, rfl, ?_⟩
  simp [selects, encode, and_F00F]
  rfl

theorem ldIdx (nnn : Addr12) : Statement (.ldIdx nnn) := by
  refine ⟨_, rfl, ?_⟩
  simp [selects, encode, and_F000]
  rfl

theorem jpV0 (nnn : Addr12) : Statement (.jpV0 nnn) := by
  refine ⟨_, rfl, ?_⟩
  simp [selects, encode, and_F000]
  rfl

theorem rnd (x : Nibble) (nn : Byte) : Statement (.rnd x nn) := by
  refine ⟨_, rfl, ?_⟩
  simp [selects, encode, and_F000]
  rfl

theorem drw (x y n : Nibble) : Statement (.drw x y n) := by
  refine ⟨_, rfl, ?_⟩
  simp [selects, encode, and_F000]
  rfl

theorem skp (x : Nibble) : Statement (.skp x) := by
  refine ⟨_, rfl, ?_⟩
  simp [selects, encode, and_F0FF]
  rfl

theorem sknp (x : Nibble) : Statement (.sknp x) := by
  refine ⟨_, rfl, ?_⟩
  simp [selects, encode, and_F0FF]
  rfl

theorem ldFromDt (x : Nibble) : Statement (.ldFromDt x) := by
  refine ⟨_, rfl, ?_⟩
  simp [selects, encode, and_F0FF]
  rfl

theorem ldKey (x : Nibble) : Statement (.ldKey x) := by
  refine ⟨_, rfl, ?_⟩
  simp [selects, encode, and_F0FF]
  rfl

theorem ldToDt (x : Nibble) : Statement (.ldToDt x) := by
  refine ⟨_, rfl, ?_⟩
  simp [selects, encode, and_F0FF]
  rfl

theorem ldToSt (x : Nibble) : Statement (.ldToSt x) := by
  refine ⟨_, rfl, ?_⟩
  simp [selects, encode, and_F0FF]
  rfl

theorem addIdx (x : Nibble) : Statement (.addIdx x) := by
  refine ⟨_, rfl, ?_⟩
  simp [selects, encode, and_F0FF]
  rfl

theorem ldFont (x : Nibble) : Statement (.ldFont x) := by
  refine ⟨_, rfl, ?_⟩
  simp [selects, encode, and_F0FF]
  rfl

theorem ldBcd (x : Nibble) : Statement (.ldBcd x) := by
  refine ⟨_, rfl, ?_⟩
  simp [selects, encode, and_F0FF]
  rfl

theorem stRegs (x : Nibble) : Statement (.stRegs x) := by
  refine ⟨_, rfl, ?_⟩
  simp [selects, encode, and_F0FF]
  rfl

theorem ldRegs (x : Nibble) : Statement (.ldRegs x) := by
  refine ⟨_, rfl, ?_⟩
  simp [selects, encode, and_F0FF]
  rfl

end Sys2Proof.Laws.RowMatch
end

