-- ==== Sys2Proof/Laws/Transactions.lean ====
section
/-! SUPPORT. What each host transaction does to every field (40_step_cycle.md R90 to R104), and the laws of runs of steps. -/

namespace Sys2Proof.Machine

variable (s : State)

/-! ### `tick_timers` -/

@[simp] theorem tickTimers_mem : (tickTimers s).2.mem = s.mem := rfl
@[simp] theorem tickTimers_v : (tickTimers s).2.v = s.v := rfl
@[simp] theorem tickTimers_i : (tickTimers s).2.i = s.i := rfl
@[simp] theorem tickTimers_pc : (tickTimers s).2.pc = s.pc := rfl
@[simp] theorem tickTimers_stk : (tickTimers s).2.stk = s.stk := rfl
@[simp] theorem tickTimers_sp : (tickTimers s).2.sp = s.sp := rfl
@[simp] theorem tickTimers_fb : (tickTimers s).2.fb = s.fb := rfl
@[simp] theorem tickTimers_dt : (tickTimers s).2.dt = tickDown s.dt := rfl
@[simp] theorem tickTimers_st : (tickTimers s).2.st = tickDown s.st := rfl
@[simp] theorem tickTimers_key : (tickTimers s).2.key = s.key := rfl
@[simp] theorem tickTimers_mode : (tickTimers s).2.mode = s.mode := rfl
@[simp] theorem tickTimers_wx : (tickTimers s).2.wx = s.wx := rfl
@[simp] theorem tickTimers_fault : (tickTimers s).2.fault = s.fault := rfl
@[simp] theorem tickTimers_sndRep : (tickTimers s).2.sndRep = decide ((tickDown s.st).toNat > 0) := rfl
@[simp] theorem tickTimers_outcome : (tickTimers s).2.outcome = s.outcome := rfl
@[simp] theorem tickTimers_draws : (tickTimers s).2.draws = s.draws := rfl
@[simp] theorem tickTimers_font : (tickTimers s).2.font = s.font := rfl
@[simp] theorem tickTimers_launched : (tickTimers s).2.launched = s.launched := rfl

/-- One tick takes one off a timer that is above 0 (R101). -/
theorem toNat_tickDown (b : Byte) : (tickDown b).toNat = b.toNat - 1 := by
  revert b
  decide

/-! ### `set_key` -/

@[simp] theorem setKey_mem (k : Option Nibble) : (setKey k s).mem = s.mem := rfl
@[simp] theorem setKey_v (k : Option Nibble) : (setKey k s).v = s.v := rfl
@[simp] theorem setKey_i (k : Option Nibble) : (setKey k s).i = s.i := rfl
@[simp] theorem setKey_pc (k : Option Nibble) : (setKey k s).pc = s.pc := rfl
@[simp] theorem setKey_stk (k : Option Nibble) : (setKey k s).stk = s.stk := rfl
@[simp] theorem setKey_sp (k : Option Nibble) : (setKey k s).sp = s.sp := rfl
@[simp] theorem setKey_fb (k : Option Nibble) : (setKey k s).fb = s.fb := rfl
@[simp] theorem setKey_dt (k : Option Nibble) : (setKey k s).dt = s.dt := rfl
@[simp] theorem setKey_st (k : Option Nibble) : (setKey k s).st = s.st := rfl
@[simp] theorem setKey_key (k : Option Nibble) : (setKey k s).key = k := rfl
@[simp] theorem setKey_mode (k : Option Nibble) : (setKey k s).mode = s.mode := rfl
@[simp] theorem setKey_wx (k : Option Nibble) : (setKey k s).wx = s.wx := rfl
@[simp] theorem setKey_fault (k : Option Nibble) : (setKey k s).fault = s.fault := rfl
@[simp] theorem setKey_sndRep (k : Option Nibble) : (setKey k s).sndRep = s.sndRep := rfl
@[simp] theorem setKey_outcome (k : Option Nibble) : (setKey k s).outcome = s.outcome := rfl
@[simp] theorem setKey_draws (k : Option Nibble) : (setKey k s).draws = s.draws := rfl
@[simp] theorem setKey_font (k : Option Nibble) : (setKey k s).font = s.font := rfl
@[simp] theorem setKey_launched (k : Option Nibble) : (setKey k s).launched = s.launched := rfl

/-! ### `load` -/

@[simp] theorem loaded_mem (bytes : List Byte) : (s.loaded bytes).mem = Memory.ofImage s.font 0x200 bytes := rfl
@[simp] theorem loaded_v (bytes : List Byte) : (s.loaded bytes).v = State.reset.v := rfl
@[simp] theorem loaded_i (bytes : List Byte) : (s.loaded bytes).i = State.reset.i := rfl
@[simp] theorem loaded_pc (bytes : List Byte) : (s.loaded bytes).pc = State.reset.pc := rfl
@[simp] theorem loaded_stk (bytes : List Byte) : (s.loaded bytes).stk = State.reset.stk := rfl
@[simp] theorem loaded_sp (bytes : List Byte) : (s.loaded bytes).sp = State.reset.sp := rfl
@[simp] theorem loaded_fb (bytes : List Byte) : (s.loaded bytes).fb = State.reset.fb := rfl
@[simp] theorem loaded_dt (bytes : List Byte) : (s.loaded bytes).dt = State.reset.dt := rfl
@[simp] theorem loaded_st (bytes : List Byte) : (s.loaded bytes).st = State.reset.st := rfl
@[simp] theorem loaded_key (bytes : List Byte) : (s.loaded bytes).key = State.reset.key := rfl
@[simp] theorem loaded_mode (bytes : List Byte) : (s.loaded bytes).mode = State.reset.mode := rfl
@[simp] theorem loaded_wx (bytes : List Byte) : (s.loaded bytes).wx = State.reset.wx := rfl
@[simp] theorem loaded_fault (bytes : List Byte) : (s.loaded bytes).fault = State.reset.fault := rfl
@[simp] theorem loaded_sndRep (bytes : List Byte) : (s.loaded bytes).sndRep = State.reset.sndRep := rfl
@[simp] theorem loaded_outcome (bytes : List Byte) : (s.loaded bytes).outcome = State.reset.outcome := rfl
@[simp] theorem loaded_draws (bytes : List Byte) : (s.loaded bytes).draws = s.draws := rfl
@[simp] theorem loaded_font (bytes : List Byte) : (s.loaded bytes).font = s.font := rfl
@[simp] theorem loaded_launched (bytes : List Byte) : (s.loaded bytes).launched = true := rfl

/-- An image of at most 3584 bytes loads (R91). -/
theorem load_ok {bytes : List Byte} (h : bytes.length ≤ 3584) : load bytes s = (.ok, s.loaded bytes) := by
  unfold load
  rw [if_neg (by omega)]

/-- A longer image fails and changes nothing (R91). -/
theorem load_tooLarge {bytes : List Byte} (h : 3584 < bytes.length) : load bytes s = (.romTooLarge, s) := by
  unfold load
  rw [if_pos (by omega)]

/-- A load of the empty image makes the constructed machine the reset machine (10_state.md R42). -/
theorem load_constructed : load [] (State.constructed defaultFont) = (.ok, State.reset) := rfl

/-- A launch state is one with a program loaded. -/
theorem launched_of_launch {s : State} (h : Launch s) : s.launched = true := by
  obtain ⟨s0, bytes, h⟩ := h
  by_cases hb : bytes.length ≤ 3584
  · rw [load_ok s0 hb] at h
    cases h
    rfl
  · rw [load_tooLarge s0 (Nat.lt_of_not_le hb)] at h
    cases h

/-! ### Runs of steps -/

variable {s}

theorem steps_succ {t : State} (k : Nat) (h : step s = .next t) : steps (k + 1) s = steps k t := by simp [steps, h]

/-- The last step of a run, taken where the steps before it left off. -/
theorem steps_snoc {k : Nat} {t : State} (h : steps k s = .next t) : steps (k + 1) s = step t := by
  induction k generalizing s with
  | zero =>
    cases h
    unfold steps
    cases step t <;> rfl
  | succ k ih =>
    cases hs : step s with
    | next u =>
      rw [steps_succ k hs] at h
      rw [steps_succ (k + 1) hs]
      exact ih h
    | fault e => simp [steps, hs] at h
    | refused e => simp [steps, hs] at h

end Sys2Proof.Machine
end

