-- ==== Sys2Proof/Tests/Slice0.lean ====
section
/-! SUPPORT. The model's own tests. Words and expected results are taken from the patterns of 30_encoding.md R74 and from the
vectors of 95_test_vectors.md (the section stands before each group); the witnesses at the end show states and operands that
meet the hypotheses of the statements in Certificates/Slice0/Obligations.lean. -/

namespace Sys2Proof.Tests

open Sys2Proof.Machine

/-! ### Helpers -/

/-- The reset state with some registers set. -/
def regs (l : List (Nibble × Byte)) : State := l.foldl (fun s p => s.setV p.1 p.2) State.reset

/-- One step with `w` placed where it fetches ends in a next state of which `p` holds. -/
def leaves (w : Word) (s : State) (p : State → Bool) : Bool :=
  match step (s.placeWord w) with
  | .next t => p t
  | .fault _ => false
  | .refused _ => false

/-- The pixels that are on, row by row. -/
def pixelsOn (fb : FrameBuffer) : List (Nat × Nat) :=
  (List.range 32).flatMap fun y => (List.range 64).filterMap fun x =>
    if pixel fb (wrapX x) (wrapY y) then some (x, y) else none

/-! ### Well-formed operands (R81, R83): one ill-formed term for each check -/

theorem test_wellFormed_register_refused : (Operands.xSub 16).wellFormed = false := by decide
theorem test_wellFormed_second_register_refused : (Operands.xy 0 16).wellFormed = false := by decide
theorem test_wellFormed_immediate_refused : (Operands.xImm 0 256).wellFormed = false := by decide
theorem test_wellFormed_address_refused : (Operands.addr 4096).wellFormed = false := by decide
theorem test_wellFormed_rows_refused : (Operands.xyn 0 0 16).wellFormed = false := by decide
theorem test_wellFormed_largest_accepted :
    (Operands.xyn 15 15 15).wellFormed = true ∧ (Operands.xImm 15 255).wellFormed = true ∧
      (Operands.addr 4095).wellFormed = true := by decide

/-! ### Decoding: a word written out from the pattern of every row of R74 -/

theorem test_decode_flow :
    decode 0x00E0#16 = .instr .cls ∧ decode 0x00EE#16 = .instr .ret ∧ decode 0x1ABC#16 = .instr (.jp 0xABC#12) ∧
    decode 0x2204#16 = .instr (.call 0x204#12) ∧ decode 0xB9FE#16 = .instr (.jpV0 0x9FE#12) := by decide
theorem test_decode_skip :
    decode 0x3042#16 = .instr (.seI 0x0#4 0x42#8) ∧ decode 0x4A9F#16 = .instr (.sneI 0xA#4 0x9F#8) ∧
    decode 0x5120#16 = .instr (.seR 0x1#4 0x2#4) ∧ decode 0x9EF0#16 = .instr (.sneR 0xE#4 0xF#4) ∧
    decode 0xE79E#16 = .instr (.skp 0x7#4) ∧ decode 0xE8A1#16 = .instr (.sknp 0x8#4) := by decide
theorem test_decode_alu :
    decode 0x6A55#16 = .instr (.ldI 0xA#4 0x55#8) ∧ decode 0x71FF#16 = .instr (.addI 0x1#4 0xFF#8) ∧
    decode 0x8120#16 = .instr (.ldR 0x1#4 0x2#4) ∧ decode 0x8341#16 = .instr (.orR 0x3#4 0x4#4) ∧
    decode 0x8562#16 = .instr (.andR 0x5#4 0x6#4) ∧ decode 0x8783#16 = .instr (.xorR 0x7#4 0x8#4) ∧
    decode 0x89A4#16 = .instr (.addR 0x9#4 0xA#4) ∧ decode 0x8BC5#16 = .instr (.sub 0xB#4 0xC#4) ∧
    decode 0x8DE6#16 = .instr (.shr 0xD#4 0xE#4) ∧ decode 0x8F07#16 = .instr (.subn 0xF#4 0x0#4) ∧
    decode 0x812E#16 = .instr (.shl 0x1#4 0x2#4) ∧ decode 0xC3F0#16 = .instr (.rnd 0x3#4 0xF0#8) := by decide
theorem test_decode_index_and_display :
    decode 0xAFFF#16 = .instr (.ldIdx 0xFFF#12) ∧ decode 0xD123#16 = .instr (.drw 0x1#4 0x2#4 0x3#4) ∧
    decode 0xF31E#16 = .instr (.addIdx 0x3#4) ∧ decode 0xF429#16 = .instr (.ldFont 0x4#4) ∧
    decode 0xF533#16 = .instr (.ldBcd 0x5#4) ∧ decode 0xF655#16 = .instr (.stRegs 0x6#4) ∧
    decode 0xF765#16 = .instr (.ldRegs 0x7#4) := by decide
theorem test_decode_key_and_timers :
    decode 0xF807#16 = .instr (.ldFromDt 0x8#4) ∧ decode 0xF90A#16 = .instr (.ldKey 0x9#4) ∧
    decode 0xFA15#16 = .instr (.ldToDt 0xA#4) ∧ decode 0xFB18#16 = .instr (.ldToSt 0xB#4) := by decide

/-- 95_test_vectors.md 2.8. -/
theorem test_decode_unknown : [0x0000#16, 0x00E1#16, 0x00FF#16, 0x0123#16, 0x5001#16, 0x8008#16, 0x800F#16].all
    (fun w => decide (decode w = .unknown w)) = true := by decide
theorem test_decode_unknown_high : [0x9001#16, 0xE000#16, 0xE19F#16, 0xF000#16, 0xF075#16, 0xF166#16, 0xFFFF#16].all
    (fun w => decide (decode w = .unknown w)) = true := by decide

/-- R70: two bytes, high byte first; one byte holds no word. -/
theorem test_decodeBytes :
    decodeBytes [0x2A#8, 0xBC#8, 0x01#8] = some (.instr (.call 0xABC#12), [0x01#8]) ∧ decodeBytes [0x00#8] = none := by
  decide

/-- R83, R81: operands in their fields; the one-operand shift has Y = 0; an operand out of range assembles to nothing. -/
theorem test_assemble :
    assemble ⟨"DRW", 0xD000#16, 0xF000#16, .xyn⟩ (.xyn 1 2 3) = some 0xD123#16 ∧
    assemble ⟨"SHR", 0x8006#16, 0xF00F#16, .xy⟩ (.xSub 5) = some 0x8506#16 ∧
    assemble ⟨"LD.IDX", 0xA000#16, 0xF000#16, .addr⟩ (.addr 4096) = none := by decide

/-- The host's table words: bit 0 of `w` is bit 0 of the word. -/
theorem test_decodeTableWord :
    decodeTableWord 16 0x00E0 = some .cls ∧ decodeTableWord 16 0xF265 = some (.ldRegs 0x2#4) ∧
      decodeTableWord 16 0xF166 = none := by decide

theorem test_withFetchWord_runs_the_word :
    (match step (State.reset.withFetchWord 16 0x6A55) with
      | .next t => decide (t.getV 0xA#4 = 0x55#8 ∧ t.pc = 0x202#16 ∧ t.outcome = .ok)
      | .fault _ => false
      | .refused _ => false) = true := by decide

/-! ### Reset (10_state.md R42) -/

theorem test_reset_memory : State.reset.byteAt 0x000 = 0xF0#8 ∧ State.reset.byteAt 0x04F = 0x80#8 ∧
    State.reset.byteAt 0x050 = 0x00#8 ∧ State.reset.byteAt 0xFFF = 0x00#8 := by decide
theorem test_reset_memory_canonical : State.reset.mem.wf defaultFont = true := by decide
theorem test_write_of_the_unlisted_value_removes_the_entry :
    (((State.reset.storeBytes 0x300 [0x5A#8]).storeBytes 0x200 [0x01#8]).storeBytes 0x300 [0x00#8]).mem = [(0x200, 0x01#8)] := by decide

/-- 70_reset_and_hazards.md R233: a step before the first load is refused, and the load of a program is what ends that. -/
theorem test_step_before_load_refused : step (State.constructed defaultFont) = .refused .stepBeforeLoad ∧
    runSchedule [.load [0x6A#8, 0x55#8], .step] (State.constructed defaultFont) ≠ .refused .stepBeforeLoad := by
  refine ⟨rfl, ?_⟩
  intro h
  cases h

/-- 00_scope.md R6: the FONT is the machine's own; a load puts it at 0x000 to 0x04F. -/
theorem test_font_is_a_parameter : (load [] (State.constructed (Vector.replicate 80 0xA5#8))).2.byteAt 0x04F = 0xA5#8 ∧
    (load [] (State.constructed (Vector.replicate 80 0xA5#8))).2.byteAt 0x050 = 0x00#8 := by decide

/-! ### Flow (95_test_vectors.md 2.1) -/

theorem test_jp : leaves 0x1ABC#16 State.reset (fun t => decide (t.pc = 0xABC#16 ∧ t.outcome = .ok)) = true := by decide
theorem test_call : leaves 0x2204#16 State.reset
    (fun t => decide (t.pc = 0x204#16 ∧ t.sp.val = 1 ∧ t.stk[0] = 0x202#16)) = true := by decide
theorem test_call_overflow : leaves 0x2200#16 { State.reset with sp := 16 }
    (fun t => decide (t.pc = 0x200#16 ∧ t.mode = .halted ∧ t.fault = some (.stackOverflow 0x200#16))) = true := by decide
theorem test_ret : leaves 0x00EE#16 { State.reset with sp := 1, stk := Vector.replicate 16 0x204#16 }
    (fun t => decide (t.pc = 0x204#16 ∧ t.sp.val = 0)) = true := by decide
theorem test_ret_underflow : leaves 0x00EE#16 State.reset
    (fun t => decide (t.pc = 0x200#16 ∧ t.outcome = .fault (.stackUnderflow 0x200#16))) = true := by decide
theorem test_jpV0_unmasked : leaves 0xBFFF#16 (regs [(0x0#4, 0xFF#8)]) (fun t => decide (t.pc = 0x10FE#16)) = true := by
  decide
theorem test_jpV0_odd : leaves 0xB204#16 (regs [(0x0#4, 0x01#8)]) (fun t => decide (t.pc = 0x205#16)) = true := by decide

/-! ### Skips (95_test_vectors.md 2.2) -/

theorem test_seI : leaves 0x3042#16 (regs [(0x0#4, 0x42#8)]) (fun t => decide (t.pc = 0x204#16)) = true ∧
    leaves 0x3042#16 (regs [(0x0#4, 0x41#8)]) (fun t => decide (t.pc = 0x202#16)) = true := by decide
theorem test_sneI : leaves 0x4042#16 (regs [(0x0#4, 0x42#8)]) (fun t => decide (t.pc = 0x202#16)) = true ∧
    leaves 0x4042#16 (regs [(0x0#4, 0x41#8)]) (fun t => decide (t.pc = 0x204#16)) = true := by decide
theorem test_seR : leaves 0x5010#16 (regs [(0x0#4, 7#8), (0x1#4, 7#8)]) (fun t => decide (t.pc = 0x204#16)) = true ∧
    leaves 0x5010#16 (regs [(0x0#4, 7#8), (0x1#4, 8#8)]) (fun t => decide (t.pc = 0x202#16)) = true := by decide
theorem test_sneR : leaves 0x9010#16 (regs [(0x0#4, 7#8), (0x1#4, 7#8)]) (fun t => decide (t.pc = 0x202#16)) = true ∧
    leaves 0x9010#16 (regs [(0x0#4, 7#8), (0x1#4, 8#8)]) (fun t => decide (t.pc = 0x204#16)) = true := by decide
theorem test_skip_over_the_end : leaves 0x3000#16 { State.reset with pc := 0xFFE#16 }
    (fun t => decide (t.pc = 0x1002#16 ∧ t.outcome = .ok)) = true := by decide

/-! ### Arithmetic and logic (95_test_vectors.md 2.3) -/

/-- `V[0]` and VF after one step. -/
def v0AndVf (w : Word) (s : State) (a f : Byte) : Bool := leaves w s fun t => decide (t.getV 0x0#4 = a ∧ t.getV 0xF#4 = f)

theorem test_ldI : leaves 0x6FFF#16 State.reset (fun t => decide (t.getV 0xF#4 = 0xFF#8)) = true := by decide
theorem test_addI_wraps : leaves 0x7FFF#16 (regs [(0xF#4, 0x01#8)]) (fun t => decide (t.getV 0xF#4 = 0x00#8)) = true := by
  decide
theorem test_ldR : leaves 0x8010#16 (regs [(0x0#4, 0x11#8), (0x1#4, 0x22#8)])
    (fun t => decide (t.getV 0x0#4 = 0x22#8 ∧ t.getV 0x1#4 = 0x22#8)) = true := by decide
theorem test_or_keeps_vf : v0AndVf 0x8011#16 (regs [(0x0#4, 0xF0#8), (0x1#4, 0x0F#8), (0xF#4, 0x07#8)]) 0xFF#8 0x07#8 = true := by
  decide
theorem test_and : v0AndVf 0x8012#16 (regs [(0x0#4, 0xF0#8), (0x1#4, 0x3C#8), (0xF#4, 0x07#8)]) 0x30#8 0x07#8 = true := by
  decide
theorem test_xor : v0AndVf 0x8013#16 (regs [(0x0#4, 0xF0#8), (0x1#4, 0x3C#8), (0xF#4, 0x07#8)]) 0xCC#8 0x07#8 = true := by
  decide
theorem test_addR : v0AndVf 0x8014#16 (regs [(0x0#4, 0xFF#8), (0x1#4, 0x01#8)]) 0x00#8 1#8 = true ∧
    v0AndVf 0x8014#16 (regs [(0x0#4, 0x01#8), (0x1#4, 0x01#8)]) 0x02#8 0#8 = true := by decide
theorem test_addR_vf_as_destination_and_as_source :
    leaves 0x8F14#16 (regs [(0xF#4, 0x10#8), (0x1#4, 0x01#8)]) (fun t => decide (t.getV 0xF#4 = 0#8)) = true ∧
    v0AndVf 0x80F4#16 (regs [(0x0#4, 0xFF#8), (0xF#4, 0x01#8)]) 0x00#8 1#8 = true := by decide
theorem test_sub : v0AndVf 0x8015#16 (regs [(0x0#4, 0x05#8), (0x1#4, 0x0A#8)]) 0xFB#8 0#8 = true ∧
    v0AndVf 0x8015#16 (regs [(0x0#4, 0x0A#8), (0x1#4, 0x05#8)]) 0x05#8 1#8 = true := by decide
theorem test_sub_equal_is_no_borrow : v0AndVf 0x8015#16 (regs [(0x0#4, 0x07#8), (0x1#4, 0x07#8)]) 0x00#8 1#8 = true := by
  decide
theorem test_shr_ignores_y : v0AndVf 0x8016#16 (regs [(0x0#4, 0x05#8), (0x1#4, 0xAA#8)]) 0x02#8 1#8 = true := by decide
theorem test_shr_vf : leaves 0x8F06#16 (regs [(0xF#4, 0x02#8)]) (fun t => decide (t.getV 0xF#4 = 0#8)) = true := by decide
theorem test_subn : v0AndVf 0x8017#16 (regs [(0x0#4, 0x05#8), (0x1#4, 0x0A#8)]) 0x05#8 1#8 = true ∧
    v0AndVf 0x8017#16 (regs [(0x0#4, 0x0A#8), (0x1#4, 0x05#8)]) 0xFB#8 0#8 = true := by decide
theorem test_shl : v0AndVf 0x801E#16 (regs [(0x0#4, 0x81#8), (0x1#4, 0x55#8)]) 0x02#8 1#8 = true ∧
    v0AndVf 0x800E#16 (regs [(0x0#4, 0x40#8)]) 0x80#8 0#8 = true := by decide
theorem test_rnd_masked_to_nothing : ∃ t, step (State.reset.placeWord 0xC000#16) = .next t ∧ t.getV 0x0#4 = 0x00#8 := by
  refine ⟨_, step_placeWord State.reset (i := .rnd 0x0#4 0x00#8) (by decide), ?_⟩
  change State.getV (State.setV _ 0x0#4 (Config.rnd 0 &&& 0x00#8)) 0x0#4 = _
  simp

/-! ### Index and memory (95_test_vectors.md 2.4) -/

theorem test_ldIdx : leaves 0xAFFF#16 State.reset (fun t => decide (t.i = 0xFFF#16)) = true := by decide
theorem test_addIdx_wraps : leaves 0xF01E#16 { regs [(0x0#4, 0xFF#8), (0xF#4, 0x05#8)] with i := 0xFFF#16 }
    (fun t => decide (t.i = 0x0FE#16 ∧ t.getV 0xF#4 = 0x05#8)) = true := by decide
theorem test_ldFont_no_mask : leaves 0xF029#16 (regs [(0x0#4, 0x0A#8)]) (fun t => decide (t.i = 0x032#16)) = true ∧
    leaves 0xF029#16 (regs [(0x0#4, 0xFF#8)]) (fun t => decide (t.i = 0x4FB#16)) = true := by decide
theorem test_ldBcd : leaves 0xF033#16 { regs [(0x0#4, 156#8)] with i := 0xFFD#16 }
    (fun t => decide (t.byteAt 0xFFD = 1#8 ∧ t.byteAt 0xFFE = 5#8 ∧ t.byteAt 0xFFF = 6#8 ∧ t.i = 0xFFD#16)) = true := by decide
theorem test_ldBcd_fault : leaves 0xF033#16 { regs [(0x0#4, 255#8)] with i := 0xFFE#16 }
    (fun t => decide (t.byteAt 0xFFE = 0#8 ∧ t.fault = some (.addressOutOfRange 0x1000#16 0x200#16))) = true := by decide
theorem test_stRegs : leaves 0xF255#16
    { regs [(0x0#4, 0x11#8), (0x1#4, 0x22#8), (0x2#4, 0x33#8), (0x3#4, 0x44#8)] with i := 0x300#16 }
    (fun t => decide (t.loadBytes 0x300 4 = [0x11#8, 0x22#8, 0x33#8, 0x00#8] ∧ t.i = 0x300#16)) = true := by decide
theorem test_stRegs_fault : leaves 0xFF55#16 { regs [(0x0#4, 0x11#8)] with i := 0xFF1#16 }
    (fun t => decide (t.byteAt 0xFF1 = 0#8 ∧ t.mode = .halted)) = true := by decide
theorem test_ldRegs_font : leaves 0xF265#16 (regs [(0x3#4, 0x99#8)])
    (fun t => decide (t.getV 0x0#4 = 0xF0#8 ∧ t.getV 0x1#4 = 0x90#8 ∧ t.getV 0x2#4 = 0x90#8 ∧ t.getV 0x3#4 = 0x99#8)) = true := by
  decide
theorem test_ldRegs_fault : leaves 0xF165#16 { regs [(0x0#4, 0x77#8)] with i := 0xFFF#16 }
    (fun t => decide (t.getV 0x0#4 = 0x77#8 ∧ t.outcome = .fault (.addressOutOfRange 0x1000#16 0x200#16))) = true := by decide

/-! ### Display (95_test_vectors.md 2.5) -/

theorem test_drw_wraps : leaves 0xD012#16
    { regs [(0x0#4, 63#8), (0x1#4, 31#8)] with i := 0x300#16, mem := [(0x300, 0x80#8), (0x301, 0x80#8)] }
    (fun t => decide (pixelsOn t.fb = [(63, 0), (63, 31)] ∧ t.getV 0xF#4 = 0#8)) = true := by decide
theorem test_drw_collides : leaves 0xD011#16
    { regs [] with i := 0x300#16, mem := [(0x300, 0x3C#8)], fb := (Vector.replicate 32 0#64).set 0 0x0F#64 }
    (fun t => decide (pixelsOn t.fb = [(0, 0), (1, 0), (4, 0), (5, 0)] ∧ t.getV 0xF#4 = 1#8)) = true := by decide
theorem test_cls : leaves 0x00E0#16 { regs [(0xF#4, 0x07#8)] with fb := Vector.replicate 32 0xFF#64 }
    (fun t => decide (pixelsOn t.fb = [] ∧ t.getV 0xF#4 = 0x07#8)) = true := by decide

/-! ### Keypad (95_test_vectors.md 2.6) -/

theorem test_skp : leaves 0xE09E#16 { regs [(0x0#4, 0x0A#8)] with key := some 0xA#4 }
      (fun t => decide (t.pc = 0x204#16)) = true ∧
    leaves 0xE09E#16 { regs [(0x0#4, 0x1A#8)] with key := some 0xA#4 } (fun t => decide (t.pc = 0x202#16)) = true := by decide
theorem test_sknp : leaves 0xE0A1#16 { regs [(0x0#4, 0x0A#8)] with key := some 0xA#4 }
      (fun t => decide (t.pc = 0x202#16)) = true ∧
    leaves 0xE0A1#16 State.reset (fun t => decide (t.pc = 0x204#16)) = true := by decide
theorem test_ldKey_blocks_on_a_held_key : leaves 0xF50A#16 { State.reset with key := some 0xC#4 }
    (fun t => decide (t.mode = .awaitingKey ∧ t.wx = 0x5#4 ∧ t.pc = 0x202#16 ∧ t.getV 0x5#4 = 0#8 ∧ t.outcome = .blocked)) = true := by
  decide
theorem test_wait_resolves : (State.awaitStep { State.reset with mode := .awaitingKey, wx := 0x5#4, key := some 0xC#4 }) =
    { State.reset.setV 0x5#4 0x0C#8 with wx := 0x5#4, key := some 0xC#4 } := by decide

/-! ### Timers (95_test_vectors.md 2.7) -/

theorem test_ldFromDt : leaves 0xF207#16 { State.reset with dt := 0x3C#8 }
    (fun t => decide (t.getV 0x2#4 = 0x3C#8 ∧ t.dt = 0x3C#8)) = true := by decide
theorem test_ldToDt : leaves 0xF115#16 (regs [(0x1#4, 0x3C#8)]) (fun t => decide (t.dt = 0x3C#8)) = true := by decide
theorem test_ldToSt : leaves 0xF018#16 (regs [(0x0#4, 0x02#8)]) (fun t => decide (t.st = 2#8 ∧ t.sndRep = false)) = true := by
  decide
theorem test_tick_started : tickTimers { State.reset with st := 2#8 } = (.started, { State.reset with st := 1#8, sndRep := true }) := by
  decide
theorem test_tick_stopped : tickTimers { State.reset with st := 1#8 } = (.stopped, State.reset) := by decide

/-! ### Faults, codes, load, trace (60_exceptions.md R208, R221; 40_step_cycle.md R91) -/

theorem test_fetch_fault : step { State.reset with pc := 0xFFF#16 } = .next
    { State.reset with pc := 0xFFF#16, mode := .halted, fault := some (.addressOutOfRange 0x1000#16 0xFFF#16),
                       outcome := .fault (.addressOutOfRange 0x1000#16 0xFFF#16) } := rfl
theorem test_codes : (FaultRecord.stackOverflow 0#16).code = 1 ∧ (FaultRecord.stackUnderflow 0#16).code = 2 ∧
    (FaultRecord.addressOutOfRange 0#16 0#16).code = 3 ∧ (StepOutcome.unknownOpcode 0#16).code = some 4 ∧
    LoadResult.romTooLarge.code = some 5 := by decide
theorem test_load_places_the_image : (load [0x12#8, 0x00#8, 0x34#8] State.reset).2.mem = [(0x200, 0x12#8), (0x202, 0x34#8)] := by
  decide
theorem test_trace : traceOf (State.reset.placeWord 0x8124#16) =
    some ⟨0x200#16, 0x8124#16, some "ADD.R", ⟨0x8#4, 0x1#4, 0x2#4, 0x4#4, 0x24#8, 0x124#12⟩⟩ := by decide

/-! ### Witnesses: states and operands that meet the hypotheses of each statement, clause by clause, at boundary values.
A statement not named here has no hypothesis. -/

/-- Running at the last address a word can be fetched from, with `w` there. -/
def lastWord (w : Word) : State := State.placeWord { State.reset with pc := 0xFFE#16 } w

/-- Halted with a record. -/
def halted : State :=
  { State.reset with mode := .halted, fault := some (.stackUnderflow 0x200#16), pc := 0x10FE#16, i := 0xFFF#16, sp := 16 }

/-- Waiting for a key, none latched. -/
def waiting : State := { State.reset with mode := .awaitingKey, wx := 0xF#4 }

theorem witness_DecodeOfEncodeIsIdentity : (Instr.drw 0xF#4 0xF#4 0xF#4).wellFormed = true ∧ (Instr.jp 0xFFF#12).wellFormed = true := by
  decide
theorem witness_EncodeOfDecodeIsIdentity : decode 0x8FFE#16 = .instr (.shl 0xF#4 0xF#4) := by decide
theorem witness_DecoderFollowsOpcodeTable :
    decode 0xFF65#16 = .instr (.ldRegs 0xF#4) ∧ decode 0xFFFF#16 = .unknown 0xFFFF#16 := by decide
theorem witness_OpcodeRowsAreDisjoint : rows[33]? = some ⟨"LD.REGS", 0xF065#16, 0xF0FF#16, .xSub⟩ ∧
    0xFF65#16 &&& 0xF0FF#16 = 0xF065#16 := by decide
theorem witness_AssembledWordDecodesToItsOperands :
    ⟨"JP", 0x1000#16, 0xF000#16, .addr⟩ ∈ rows ∧ (Operands.addr 4096).wellFormed = false ∧
    assemble ⟨"JP", 0x1000#16, 0xF000#16, .addr⟩ (.addr 4095) = some 0x1FFF#16 := by decide
theorem witness_FetchIsBigEndian : (lastWord 0x1234#16).pc.toNat ≤ 0xFFE := by decide
theorem witness_FetchBeyondMemoryFaults_first : ({ State.reset with pc := 0xFFF#16 } : State).launched = true ∧
    ({ State.reset with pc := 0xFFF#16 } : State).mode = .running ∧ 0xFFE < ({ State.reset with pc := 0xFFF#16 } : State).pc.toNat := by
  decide
theorem witness_FetchBeyondMemoryFaults_last : ({ State.reset with pc := 0x10FE#16 } : State).launched = true ∧
    ({ State.reset with pc := 0x10FE#16 } : State).mode = .running ∧ 0xFFE < ({ State.reset with pc := 0x10FE#16 } : State).pc.toNat := by
  decide
theorem witness_StepRunsDecodedInstruction : (lastWord 0x1ABC#16).launched = true ∧ (lastWord 0x1ABC#16).mode = .running ∧ (lastWord 0x1ABC#16).pc.toNat ≤ 0xFFE ∧
    decodeBytes [(lastWord 0x1ABC#16).byteAt 0xFFE, (lastWord 0x1ABC#16).byteAt 0xFFF] = some (.instr (.jp 0xABC#12), []) := by decide
theorem witness_UnknownOpcodeOnlyAdvances : (lastWord 0x5011#16).launched = true ∧ (lastWord 0x5011#16).mode = .running ∧ (lastWord 0x5011#16).fetch = .ok 0x5011#16 ∧
    decode 0x5011#16 = .unknown 0x5011#16 := ⟨rfl, rfl, rfl, rfl⟩
theorem witness_HaltedStepRepeatsFault : halted.launched = true ∧ halted.mode = .halted ∧ halted.fault = some (.stackUnderflow 0x200#16) := by decide
theorem witness_AwaitingStepResolvesOnKey_key :
    (setKey (some 0xF#4) waiting).launched = true ∧ (setKey (some 0xF#4) waiting).mode = .awaitingKey ∧ (setKey (some 0xF#4) waiting).key = some 0xF#4 := by decide
theorem witness_AwaitingStepResolvesOnKey_none : waiting.launched = true ∧ waiting.mode = .awaitingKey ∧ waiting.key = none := by decide
theorem witness_AddWithCarry_SubtractWithNotBorrow_ShiftsWithBitOut : (0xE#4 : Nibble) ≠ 0xF#4 := by decide
theorem witness_JumpTargets_jp : State.reset.launched = true ∧ State.reset.mode = .running ∧ (0xFFF#12 : Addr12) = 0xFFF#12 := by decide
theorem witness_JumpTargets_jpV0 : (regs [(0x0#4, 0xFF#8)]).launched = true ∧ (regs [(0x0#4, 0xFF#8)]).mode = .running ∧
    (match exec (.jpV0 0xF00#12) (regs [(0x0#4, 0xFF#8)]) with
      | .next t => decide (0xFFE < t.pc.toNat)
      | .fault _ => false
      | .refused _ => false) = true := by decide
theorem witness_CallPushesReturnAddress_CallThenReturn :
    ({ State.reset with sp := 15 } : State).sp.val ≠ 16 ∧ halted.sp.val = 16 := by decide
theorem witness_ReturnPopsTop : halted.sp.val ≠ 0 ∧ State.reset.sp.val = 0 := by decide
theorem witness_KeySkips : (∃ k, ({ State.reset with key := some 0x0#4 } : State).key = some k ∧ (State.reset.getV 0x3#4).toNat = k.toNat) ∧
    ¬∃ k, State.reset.key = some k ∧ (State.reset.getV 0x3#4).toNat = k.toNat := by
  refine ⟨⟨0x0#4, rfl, by decide⟩, ?_⟩
  rintro ⟨k, hk, -⟩
  cases hk
theorem witness_BcdDigitsStored : ({ State.reset with i := 0xFFD#16 } : State).i.toNat + 2 < 4096 := by decide
theorem witness_RegistersStored_RegistersLoaded :
    ({ State.reset with i := 0xFF0#16 } : State).i.toNat + (0xF#4 : Nibble).toNat < 4096 ∧
    (0xF#4 : Nibble).toNat ≤ (0xF#4 : Nibble).toNat ∧
    ({ State.reset with i := 0xFFF#16 } : State).i.toNat + (0x0#4 : Nibble).toNat < 4096 ∧ (0x0#4 : Nibble).toNat < (0x1#4 : Nibble).toNat := by decide
theorem witness_DataRangeFaults :
    0 < (0x2#4 : Nibble).toNat ∧ 4096 ≤ ({ State.reset with i := 0xFFF#16 } : State).i.toNat + (0x2#4 : Nibble).toNat - 1 ∧
    4096 ≤ ({ State.reset with i := 0xFFE#16 } : State).i.toNat + 2 ∧
    4096 ≤ ({ State.reset with i := 0xFF1#16 } : State).i.toNat + (0xF#4 : Nibble).toNat := by decide
theorem witness_DrawFlipsCoveredPixels : ((0x0#4 : Nibble) = 0x0#4) ∧
    ({ State.reset with i := 0xFF1#16 } : State).i.toNat + (0xF#4 : Nibble).toNat ≤ 4096 := by decide
theorem witness_DrawTwiceRestores : (0xE#4 : Nibble) ≠ 0xF#4 ∧ (0x0#4 : Nibble) ≠ 0xF#4 ∧
    ({ State.reset with i := 0xFF1#16 } : State).i.toNat + (0xF#4 : Nibble).toNat ≤ 4096 := by decide
theorem witness_FaultsArePrecise : ({ State.reset with pc := 0xFFF#16 } : State).mode ≠ .halted ∧
    ∃ t, step { State.reset with pc := 0xFFF#16 } = .next t ∧ t.mode = .halted := ⟨by decide, _, rfl, rfl⟩
theorem witness_OnlyListedInstructionsFault_raises : raises .ret State.reset = some (.stackUnderflow 0x200#16) ∧
    raises (.call 0x200#12) { State.reset with sp := 16 } = some (.stackOverflow 0x200#16) ∧
    raises (.drw 0x0#4 0x0#4 0x1#4) { State.reset with i := 0x1000#16 } = some (.addressOutOfRange 0x1000#16 0x200#16) ∧
    raises (.ldBcd 0x0#4) { State.reset with i := 0xFFE#16 } = some (.addressOutOfRange 0x1000#16 0x200#16) ∧
    raises (.stRegs 0xF#4) { State.reset with i := 0xFF1#16 } = some (.addressOutOfRange 0x1000#16 0x200#16) ∧
    raises (.ldRegs 0xF#4) { State.reset with i := 0xFF1#16 } = some (.addressOutOfRange 0x1000#16 0x200#16) := by decide
theorem witness_OnlyListedInstructionsFault_completes : raises .ret { State.reset with sp := 1 } = none ∧
    raises (.call 0x200#12) { State.reset with sp := 15 } = none ∧
    raises (.drw 0x0#4 0x0#4 0x1#4) { State.reset with i := 0xFFF#16 } = none ∧
    raises (.drw 0x0#4 0x0#4 0x0#4) { State.reset with i := 0x1000#16 } = none ∧
    raises (.ldBcd 0x0#4) { State.reset with i := 0xFFD#16 } = none ∧
    raises (.stRegs 0xF#4) { State.reset with i := 0xFF0#16 } = none ∧
    raises (.ldRegs 0xF#4) { State.reset with i := 0xFF0#16 } = none ∧ raises (.ldKey 0x0#4) State.reset = none := by decide
theorem witness_HaltedUntilLoad : halted.launched = true ∧ halted.mode = .halted ∧ halted.fault = some (.stackUnderflow 0x200#16) ∧
    ∀ t ∈ [Transaction.step, .tickTimers, .setKey none, .display], t.isLoad = false := by decide
theorem witness_LoadResetsEverything :
    (List.replicate 3584 0xFF#8).length ≤ 3584 ∧ 3584 < (List.replicate 3585 0xFF#8).length :=
  ⟨Nat.le_of_eq List.length_replicate, Nat.lt_of_lt_of_eq (Nat.lt_succ_self 3584) List.length_replicate.symm⟩
theorem witness_SoundEdgeReports : ({ State.reset with st := 1#8 } : State).st = 1#8 ∧ State.reset.st = 0#8 ∧
    State.reset.sndRep = false := by decide
theorem witness_InvariantKeptByStep : halted.launched = true ∧ Inv halted :=
  ⟨rfl, by decide, by decide, by decide, by intro j; simp [halted, State.reset], by decide, by decide⟩
theorem witness_InvariantOnEverySchedule_unlaunched : (State.constructed defaultFont).launched = false ∧
    Inv (State.constructed defaultFont) :=
  ⟨rfl, by decide, by decide, by decide, by intro j; simp [State.constructed, State.reset], by decide, by decide⟩
theorem witness_InvariantOnEverySchedule_launch : Launch State.reset := ⟨State.constructed defaultFont, [], load_constructed⟩
theorem witness_AccessTableFrame : ∃ t, exec (.ldI 0xF#4 0xFF#8) State.reset = .next t := ⟨_, rfl⟩
theorem witness_StepNeverTicksOrSetsKey_and_noninterference : ∃ t, step (lastWord 0xF018#16) = .next t := ⟨_, rfl⟩
theorem witness_FlagRegisterWriters : (∃ t, exec (.addR 0xF#4 0xF#4) State.reset = .next t) ∧ writesFlag (.addR 0xF#4 0xF#4) = true ∧
    (∃ t, exec (.ldRegs 0xE#4) State.reset = .next t) ∧ writesFlag (.ldRegs 0xE#4) = false ∧
    vfIsDestination (.ldRegs 0xE#4) = false := ⟨⟨_, rfl⟩, rfl, ⟨_, rfl⟩, rfl, rfl⟩
theorem witness_StoreSeenByNextFetch : (let s : State := { State.reset with i := 0xFFE#16, pc := 0xFFC#16 }
    s.i.toNat + (0x1#4 : Nibble).toNat < 4096 ∧ (0x0#4 : Nibble).toNat < (0x1#4 : Nibble).toNat ∧
    (s.pc + 2#16).toNat = s.i.toNat + (0x0#4 : Nibble).toNat) := by decide
theorem witness_StoreThenLoadRestores : ({ State.reset with i := 0xFF0#16 } : State).i.toNat + (0xF#4 : Nibble).toNat < 4096 := by
  decide
theorem witness_SixteenCallsThenOverflow : State.reset.sp.val = 0 ∧ (List.replicate 16 0x200#12).length = 16 := by decide
theorem witness_FreeStackEntriesUnobservable :
    (∀ j : Fin 16, j.val < State.reset.sp.val → (Vector.replicate 16 0xFFFF#16)[j] = State.reset.stk[j]) ∧
    ∃ t, step State.reset = .next t := by
  refine ⟨?_, _, rfl⟩
  intro j hj
  exact absurd hj (Nat.not_lt_zero _)
/-- Running at the given address of reset memory. -/
def runningAt (a : Word) : State := { State.reset with pc := a }

/-- An odd address, and the even ones at both ends of the zeros beyond the image. -/
theorem witness_RunOffTheEndHalts : ∀ p ∈ [0xFFD#16, 0x200#16, 0x1000#16], (runningAt p).launched = true ∧
    (runningAt p).mode = .running ∧ (runningAt p).pc.toNat ≤ 4096 ∧
    ∀ a, (runningAt p).pc.toNat ≤ a → a < 4096 → (runningAt p).byteAt a = 0#8 := by
  intro p hp
  have hlo : 0x200 ≤ p.toNat ∧ p.toNat ≤ 4096 := by
    simp only [List.mem_cons, List.not_mem_nil, or_false] at hp
    obtain rfl | rfl | rfl := hp <;> decide
  exact ⟨rfl, rfl, hlo.2, fun a (ha : p.toNat ≤ a) _ => Memory.unlisted_beyond_font defaultFont (by omega)⟩
theorem witness_FinishedProgramStays : (lastWord 0x1FFE#16).launched = true ∧ (State.reset.placeWord 0x1200#16).launched = true ∧
    (State.reset.placeWord 0x1200#16).finished = true ∧ (lastWord 0x1FFE#16).finished = true := by
  decide
theorem witness_WaitLastsUntilKey : waiting.launched = true ∧ waiting.mode = .awaitingKey ∧ waiting.key = none := by decide
theorem witness_TraceRecordsFetchedWords : (State.constructed defaultFont).launched = false ∧ halted.mode ≠ .running ∧
    (lastWord 0x5011#16).launched = true ∧ (lastWord 0x5011#16).mode = .running ∧
    (lastWord 0x5011#16).fetch = .ok 0x5011#16 := ⟨rfl, by decide, rfl, rfl, rfl⟩

/-! ### The assembly notation (R81 to R84; the listing and its image are P1 of 95_test_vectors.md) -/

theorem test_assemble_example : assembleLine .add [.reg 3, .reg 0xA] = some 0x83A4#16 := by decide
theorem test_assemble_range : assembleLine .ld [.reg 3, .num 256] = none := by decide
theorem test_assemble_listing :
    assembleListing [.org 0x200, .line .ld [.reg 0, .num 0], .line .ld [.reg 1, .num 0x0A], .label "loop",
      .line .add [.reg 0, .reg 1], .line .add [.reg 1, .num 0xFF], .line .se [.reg 1, .num 0], .line .jp [.label "loop"],
      .label "end", .line .jp [.label "end"]] =
    some [0x60#8, 0x00#8, 0x61#8, 0x0A#8, 0x80#8, 0x14#8, 0x71#8, 0xFF#8, 0x31#8, 0x00#8, 0x12#8, 0x04#8, 0x12#8, 0x0C#8] := by
  decide
theorem test_label_before_org : labels 0x200 [.label "a", .org 0x300, .label "b"] = [("a", 0x200), ("b", 0x300)] := by decide
theorem test_disassemble_shift : disassemble 0x83A6#16 = .line .shr [.reg 3, .reg 0xA] := by decide
theorem test_disassemble_unknown : disassemble 0x8008#16 = .byte 0x80#8 0x08#8 := by decide
theorem witness_ReassemblyRestoresWord : decode 0x83A6#16 = .instr (.shr 3#4 0xA#4) ∧ decode 0x83AE#16 = .instr (.shl 3#4 0xA#4) ∧
    (0xA#4 : Nibble) ≠ 0#4 ∧ decode 0x8008#16 = .unknown 0x8008#16 := by decide

end Sys2Proof.Tests
end

section
/-! SUPPORT. What an instruction does, said once: it takes the fault the table R210 lists for it, or it leaves one state. -/

namespace Sys2Proof.Machine

/-! ### One meaning for every instruction -/

/-- The state an instruction leaves where it raises nothing. The six instructions with a check are written out as what they do
once it has passed; every other one answers outright (40_step_cycle.md R97). -/
def effect (i : Instr) (s : State) : State :=
  match i with
  | .ret =>
    { s.advance with
      pc := s.stk[s.sp.val - 1]'(by have := s.sp.isLt; omega)
      sp := ⟨s.sp.val - 1, by have := s.sp.isLt; omega⟩ }
  | .call nnn =>
    { s.advance with
      pc := addrOperand nnn
      stk := s.stk.setIfInBounds s.sp.val (s.pc + 2#16)
      sp := ⟨min (s.sp.val + 1) 16, by omega⟩ }
  | .drw x y n => { s.advance with fb := (drawing s x y n).1 }.setFlag (drawing s x y n).2
  | .ldBcd x => s.advance.storeBytes s.base (bcdDigits (s.getV x))
  | .stRegs x => s.advance.storeBytes s.base (s.regRange x)
  | .ldRegs x => s.advance.setRegs 0 (s.loadBytes s.base (rangeCount x))
  | i =>
    match exec i s with
    | .next t => t
    | .fault _ | .refused _ => s

/-! ### The checks of the table R210, passed -/

theorem raises_ret_eq_none {s : State} : raises .ret s = none ↔ s.sp.val ≠ 0 := by
  simp only [raises, ite_eq_right_iff, reduceCtorEq, imp_false, ne_eq]

theorem raises_call_eq_none {nnn : Addr12} {s : State} : raises (.call nnn) s = none ↔ s.sp.val ≠ 16 := by
  simp only [raises, ite_eq_right_iff, reduceCtorEq, imp_false, ne_eq]

theorem raises_drw_eq_none {x y n : Nibble} {s : State} :
    raises (.drw x y n) s = none ↔ n.toNat = 0 ∨ s.base + n.toNat ≤ 4096 := by
  simp only [raises, ite_eq_right_iff, reduceCtorEq, imp_false, State.base]
  omega

theorem raises_ldBcd_eq_none {x : Nibble} {s : State} : raises (.ldBcd x) s = none ↔ s.base + 3 ≤ 4096 := by
  simp only [raises, ite_eq_right_iff, reduceCtorEq, imp_false, State.base, gt_iff_lt, not_lt]

theorem raises_stRegs_eq_none {x : Nibble} {s : State} : raises (.stRegs x) s = none ↔ s.base + rangeCount x ≤ 4096 := by
  simp only [raises, ite_eq_right_iff, reduceCtorEq, imp_false, State.base, rangeCount, gt_iff_lt, not_lt, Nat.add_assoc]

theorem raises_ldRegs_eq_none {x : Nibble} {s : State} : raises (.ldRegs x) s = none ↔ s.base + rangeCount x ≤ 4096 := by
  simp only [raises, ite_eq_right_iff, reduceCtorEq, imp_false, State.base, rangeCount, gt_iff_lt, not_lt, Nat.add_assoc]

/-! ### Every instruction takes its fault or leaves its effect -/

/-- A listed fault is taken in the state at entry (60_exceptions.md R206, R210). -/
theorem exec_of_raises {i : Instr} {s : State} {f : FaultRecord} (h : raises i s = some f) :
    exec i s = .next (s.takeFault f) := by
  have hbase : s.base = s.i.toNat := rfl
  cases i <;> simp only [raises, Option.ite_none_right_eq_some, Option.some.injEq, reduceCtorEq] at h <;>
    obtain ⟨hc, rfl⟩ := h
  case ret => exact execRet_error hc
  case call nnn => exact execCall_error nnn hc
  case drw x y n => exact execDrw_error x y n hc.1 (by omega)
  case ldBcd x => exact execLdBcd_error x (by omega)
  case stRegs x => exact execStRegs_error x (by unfold rangeCount; omega)
  case ldRegs x => exact execLdRegs_error x (by unfold rangeCount; omega)

/-- An instruction that raises nothing leaves its effect. -/
theorem exec_of_not_raises {i : Instr} {s : State} (h : raises i s = none) : exec i s = .next (effect i s) := by
  cases i
  case ret =>
    obtain ⟨_, hret⟩ := execRet_ok (raises_ret_eq_none.mp h)
    exact hret
  case call nnn =>
    obtain ⟨hlt, hcall⟩ := execCall_ok nnn (raises_call_eq_none.mp h)
    have hstk : s.stk.setIfInBounds s.sp.val (s.pc + 2#16) = s.stk.set s.sp.val (s.pc + 2#16) hlt := by
      ext j
      simp [Vector.getElem_setIfInBounds, Vector.getElem_set]
    have hmin : min (s.sp.val + 1) 16 = s.sp.val + 1 := by omega
    simp only [exec, hcall, effect, hstk, hmin]
  case drw x y n => exact execDrw_ok x y n (raises_drw_eq_none.mp h)
  case ldBcd x => exact execLdBcd_ok x (raises_ldBcd_eq_none.mp h)
  case stRegs x => exact execStRegs_ok x (raises_stRegs_eq_none.mp h)
  case ldRegs x => exact execLdRegs_ok x (raises_ldRegs_eq_none.mp h)
  all_goals rfl

/-- Every instruction answers a next state, in every state. -/
theorem exec_answers (i : Instr) (s : State) : ∃ t, exec i s = .next t := by
  cases h : raises i s with
  | some f => exact ⟨_, exec_of_raises h⟩
  | none => exact ⟨_, exec_of_not_raises h⟩

/-- Where the next state of an instruction comes from: the fault it takes, or its effect. -/
theorem exec_cases {i : Instr} {s t : State} (h : exec i s = .next t) :
    (∃ f, raises i s = some f ∧ t = s.takeFault f) ∨ (raises i s = none ∧ t = effect i s) := by
  cases hr : raises i s with
  | some f =>
    cases (exec_of_raises hr).symm.trans h
    exact .inl ⟨f, rfl, rfl⟩
  | none =>
    cases (exec_of_not_raises hr).symm.trans h
    exact .inr ⟨rfl, rfl⟩

end Sys2Proof.Machine
end

section
/-! SUPPORT. Frames, one rule per operation of the state: what the operation writes joins the list, all else reads as before
(10_state.md R43). -/

namespace Sys2Proof.Machine

variable {ps : List Part} {s t : State}

/-! ### Frames of the operations -/

theorem Frame.refl (ps : List Part) (s : State) : Frame ps s s := by
  intro p _
  cases p <;> simp [SamePart]

theorem Frame.advance (h : Frame ps s t) : Frame ps s t.advance := by
  intro p hp
  cases p <;> exact h _ hp

theorem Frame.setPc (h : Frame ps s t) (a : Word) : Frame ps s { t with pc := a } := by
  intro p hp
  cases p <;> exact h _ hp

theorem Frame.skipIf (h : Frame ps s t) (c : Bool) : Frame ps s (t.skipIf c) := by
  cases c with
  | false => exact h
  | true => exact h.setPc _

theorem Frame.setV (h : Frame ps s t) (hw : .regs ∈ ps) (r : Nibble) (b : Byte) : Frame ps s (t.setV r b) := by
  intro p hp
  cases p with
  | regs => exact absurd hw hp
  | _ => exact h _ hp

theorem Frame.setResultAndFlag (h : Frame ps s t) (hw : .regs ∈ ps) (r : Nibble) (b : Byte) (c : Bool) :
    Frame ps s (t.setResultAndFlag r b c) :=
  (h.setV hw r b).setV hw vf (flagByte c)

theorem Frame.setRegs (h : Frame ps s t) (hw : .regs ∈ ps) (r : Nat) (bs : List Byte) : Frame ps s (t.setRegs r bs) := by
  induction bs generalizing t r with
  | nil => exact h
  | cons b bs ih => exact ih (h.setV hw _ b) (r + 1)

theorem Frame.setIndex (h : Frame ps s t) (hw : .index ∈ ps) (a : Word) : Frame ps s { t with i := a } := by
  intro p hp
  cases p with
  | index => exact absurd hw hp
  | _ => exact h _ hp

/-- A push or a pop, and the transfer that goes with it (41_flow.md R111, R113). -/
theorem Frame.setPcStack (h : Frame ps s t) (hw : .stack ∈ ps) (a : Word) (stk : Vector Word 16) (sp : Fin 17) :
    Frame ps s { t with pc := a, stk := stk, sp := sp } := by
  intro p hp
  cases p with
  | stack => exact absurd hw hp
  | _ => exact h _ hp

theorem Frame.storeBytes (h : Frame ps s t) (hw : .mem ∈ ps) (a : Nat) (bs : List Byte) : Frame ps s (t.storeBytes a bs) := by
  intro p hp
  cases p with
  | mem => exact absurd hw hp
  | _ => exact h _ hp

theorem Frame.setDisplay (h : Frame ps s t) (hw : .display ∈ ps) (fb : FrameBuffer) : Frame ps s { t with fb := fb } := by
  intro p hp
  cases p with
  | display => exact absurd hw hp
  | _ => exact h _ hp

theorem Frame.setDelay (h : Frame ps s t) (hw : .delay ∈ ps) (b : Byte) : Frame ps s { t with dt := b } := by
  intro p hp
  cases p with
  | delay => exact absurd hw hp
  | _ => exact h _ hp

theorem Frame.setSound (h : Frame ps s t) (hw : .sound ∈ ps) (b : Byte) : Frame ps s { t with st := b } := by
  intro p hp
  cases p with
  | sound => exact absurd hw hp
  | _ => exact h _ hp

theorem Frame.setDraws (h : Frame ps s t) (hw : .draws ∈ ps) (n : Nat) : Frame ps s { t with draws := n } := by
  intro p hp
  cases p with
  | draws => exact absurd hw hp
  | _ => exact h _ hp

/-- Entering the key wait (46_keypad.md R173). -/
theorem Frame.enterWait (h : Frame ps s t) (hm : .mode ∈ ps) (hw : .wait ∈ ps) (x : Nibble) :
    Frame ps s { t with wx := x, mode := .awaitingKey, outcome := .blocked } := by
  intro p hp
  cases p with
  | mode => exact absurd hm hp
  | wait => exact absurd hw hp
  | _ => exact h _ hp

/-! ### Registers and memory, one by one -/

theorem onlyRegs_setV (s : State) (x : Nibble) (b : Byte) : OnlyRegs [x] s (s.setV x b) := by
  intro r hr
  rw [getV_setV, if_neg (by rintro rfl; simp at hr)]

theorem onlyRegs_setResultAndFlag (s : State) (x : Nibble) (b : Byte) (c : Bool) :
    OnlyRegs [0xF#4, x] s (s.setResultAndFlag x b c) := by
  intro r hr
  simp only [List.mem_cons, List.not_mem_nil, or_false, not_or] at hr
  obtain ⟨hflag, hx⟩ := hr
  rw [getV_setResultAndFlag, vf, if_neg (Ne.symm hflag), if_neg (Ne.symm hx)]

theorem onlyBytes_storeBytes (s : State) (a : Nat) (bs : List Byte) : OnlyBytes a bs.length s (s.storeBytes a bs) := by
  intro c hc
  rw [byteAt_storeBytes, if_neg hc]

@[simp] theorem length_regRange (s : State) (x : Nibble) : (s.regRange x).length = rangeCount x := length_regBytes s 0 _

/-! ### The effect of an instruction stays in its row of the access table -/

theorem effect_frame (i : Instr) (s : State) : Frame (mayWrite i) s (effect i s) := by
  have h : Frame (mayWrite i) s s.advance := (Frame.refl _ s).advance
  cases i
  case cls => exact h.setDisplay (by simp [mayWrite]) _
  case ret | call => exact h.setPcStack (by simp [mayWrite]) _ _ _
  case jp | jpV0 => exact h.setPc _
  case seI | sneI | seR | sneR | skp | sknp => exact h.skipIf _
  case ldI | addI | ldR | orR | andR | xorR | ldFromDt => exact h.setV (by simp [mayWrite]) _ _
  case addR | sub | shr | subn | shl => exact h.setResultAndFlag (by simp [mayWrite]) _ _ _
  case ldIdx | addIdx | ldFont => exact h.setIndex (by simp [mayWrite]) _
  case rnd => exact (h.setV (by simp [mayWrite]) _ _).setDraws (by simp [mayWrite]) _
  case drw => exact (h.setDisplay (by simp [mayWrite]) _).setV (by simp [mayWrite]) _ _
  case ldKey => exact h.enterWait (by simp [mayWrite]) (by simp [mayWrite]) _
  case ldToDt => exact h.setDelay (by simp [mayWrite]) _
  case ldToSt => exact h.setSound (by simp [mayWrite]) _
  case ldBcd | stRegs => exact h.storeBytes (by simp [mayWrite]) _ _
  case ldRegs => exact h.setRegs (by simp [mayWrite]) _ _

theorem effect_onlyRegs (i : Instr) (s : State) : OnlyRegs (regsWritten i) s (effect i s) := by
  cases i
  case ldI | addI | ldR | orR | andR | xorR | ldFromDt | rnd => exact onlyRegs_setV s.advance _ _
  case addR | sub | shr | subn | shl => exact onlyRegs_setResultAndFlag s.advance _ _ _
  case drw x y n => exact onlyRegs_setV { s.advance with fb := (drawing s x y n).1 } vf _
  case seI | sneI | seR | sneR | skp | sknp => exact fun r _ => getV_skipIf s.advance _ r
  case ldRegs x =>
    intro r hr
    have hx : ¬r.toNat ≤ x.toNat := fun h => hr ((mem_destRegs_ldRegs x r).mpr h)
    have hlen := rangeCount_le x
    refine (getV_setRegs s.advance 0 _ (by simpa using hlen) r).trans (if_neg ?_)
    simp only [length_loadBytes, rangeCount]
    omega
  all_goals exact fun _ _ => rfl

theorem effect_onlyBytes (i : Instr) (s : State) : OnlyBytes s.base (bytesStored i) s (effect i s) := by
  cases i
  case ldBcd x => exact onlyBytes_storeBytes s.advance s.base (bcdDigits (s.getV x))
  case stRegs x =>
    have h := onlyBytes_storeBytes s.advance s.base (s.regRange x)
    rw [length_regRange] at h
    exact h
  all_goals exact fun a _ => effect_frame _ s .mem (by simp [mayWrite]) a

/-- An instruction outside the row `pc` of the table goes on to the next one. -/
theorem effect_pc {i : Instr} (s : State) (h : writesPc i = false) : (effect i s).pc = s.pc + 2#16 := by
  cases i
  case ret | jp | call | jpV0 | seI | sneI | seR | sneR | skp | sknp => cases h
  case ldRegs => exact setRegs_pc s.advance _ _
  all_goals rfl

theorem faultTaken_takeFault (f : FaultRecord) (s : State) : FaultTaken f s (s.takeFault f) := ⟨rfl, rfl, rfl, rfl⟩

/-- Settles O46: an instruction that takes no fault leaves its effect, and the effect stays in the instruction's row. -/
theorem accessTableFrame : Obligations.AccessTableFrame := by
  intro i s t h
  obtain ⟨f, -, rfl⟩ | ⟨-, rfl⟩ := exec_cases h
  · exact .inl ⟨f, faultTaken_takeFault f s⟩
  · exact .inr ⟨effect_frame i s, effect_onlyRegs i s, effect_onlyBytes i s, effect_pc s⟩

/-! ### The flag -/

theorem flagByte_cases (c : Bool) : flagByte c = 0#8 ∨ flagByte c = 1#8 := by cases c <;> decide

/-- An instruction that writes the flag writes it last (43_alu.md R130). -/
theorem effect_vf {i : Instr} (s : State) (h : writesFlag i = true) : ∃ c, (effect i s).getV 0xF#4 = flagByte c := by
  cases i
  case addR | sub | shr | subn | shl => exact ⟨_, getV_setResultAndFlag s.advance _ _ _ 0xF#4⟩
  case drw x y n => exact ⟨_, getV_setFlag { s.advance with fb := (drawing s x y n).1 } _ 0xF#4⟩
  all_goals cases h

/-- Settles O48: a flag writer leaves a flag byte in VF, and for every other instruction VF is written as a destination only. -/
theorem flagRegisterWriters : Obligations.FlagRegisterWriters := by
  intro i s t h
  obtain ⟨f, -, rfl⟩ | ⟨-, rfl⟩ := exec_cases h
  · exact .inl ⟨f, faultTaken_takeFault f s⟩
  · refine .inr ⟨fun hw => ?_, fun hw hd => effect_onlyRegs i s _ ?_⟩
    · obtain ⟨c, hc⟩ := effect_vf s hw
      rw [hc]
      exact flagByte_cases c
    · simpa [regsWritten, hw, vfIsDestination] using hd

end Sys2Proof.Machine
end

section
/-! SUPPORT. The invariant (10_state.md R44), one rule per operation of the state, then per instruction, step, transaction and
schedule. -/

namespace Sys2Proof.Machine

variable {s : State}

/-! ### Operations -/

/-- The advance of an instruction that was fetched, and of a skip after it, stays below the bound of `pc` (R25). -/
theorem toNat_add_two {a : Word} {n : Nat} (h : a.toNat ≤ n) (hn : n + 2 < 65536 := by omega) : (a + 2#16).toNat ≤ n + 2 := by
  rw [BitVec.toNat_add_of_lt (by simp; omega)]
  simpa using h

/-- The invariant speaks of memory, `I`, `pc`, the stack, the record and the mode; all else is free. -/
theorem Inv.setFree (h : Inv s) (v fb dt st key wx sndRep outcome draws launched) :
    Inv { s with
      v := v, fb := fb, dt := dt, st := st, key := key, wx := wx, sndRep := sndRep, outcome := outcome, draws := draws,
      launched := launched } :=
  ⟨h.memory, h.index, h.counter, h.entries, h.depth, h.record⟩

theorem Inv.setV (h : Inv s) (r : Nibble) (b : Byte) : Inv (s.setV r b) := h.setFree ..

theorem Inv.setPc (h : Inv s) {a : Word} (ha : a.toNat ≤ 0x10FE) : Inv { s with pc := a } :=
  ⟨h.memory, h.index, ha, h.entries, h.depth, h.record⟩

theorem Inv.advance (h : Inv s) (hpc : s.pc.toNat ≤ 0xFFE) : Inv s.advance :=
  (h.setPc ((toNat_add_two hpc).trans (by decide))).setFree ..

theorem Inv.skipIf (h : Inv s) (hpc : s.pc.toNat ≤ 0x1000) (c : Bool) : Inv (s.skipIf c) := by
  cases c with
  | false => exact h
  | true => exact h.setPc ((toNat_add_two hpc).trans (by decide))

theorem Inv.setRegs (h : Inv s) (r : Nat) (bs : List Byte) : Inv (s.setRegs r bs) := by
  induction bs generalizing s r with
  | nil => exact h
  | cons b bs ih => exact ih (h.setV _ b) (r + 1)

theorem Inv.setIndex (h : Inv s) {a : Word} (ha : a.toNat ≤ 0xFFF) : Inv { s with i := a } :=
  ⟨h.memory, ha, h.counter, h.entries, h.depth, h.record⟩

theorem Inv.storeBytes (h : Inv s) {a : Nat} {bs : List Byte} (hr : a + bs.length ≤ 4096) : Inv (s.storeBytes a bs) :=
  ⟨Memory.wf_storeBytes h.memory hr, h.index, h.counter, h.entries, h.depth, h.record⟩

theorem Inv.takeFault (h : Inv s) (f : FaultRecord) : Inv (s.takeFault f) :=
  ⟨h.memory, h.index, h.counter, h.entries, h.depth, by simp⟩

theorem Inv.push (h : Inv s) {v : Word} (hv : v.toNat ≤ 0x1000) (k : Nat) (sp : Fin 17) :
    Inv { s with stk := s.stk.setIfInBounds k v, sp := sp } := by
  refine ⟨h.memory, h.index, h.counter, fun j => ?_, Nat.le_of_lt_succ sp.isLt, h.record⟩
  by_cases hj : k = j.val
  · simpa [Vector.getElem_setIfInBounds, hj] using hv
  · simpa [Vector.getElem_setIfInBounds, hj] using h.entries j

theorem Inv.pop (h : Inv s) (j : Fin 16) (sp : Fin 17) : Inv { s with pc := s.stk[j], sp := sp } :=
  ⟨h.memory, h.index, (h.entries j).trans (by decide), h.entries, Nat.le_of_lt_succ sp.isLt, h.record⟩

/-- A running machine has no fault recorded, so it may wait or run on (R36, R38). -/
theorem Inv.setMode (h : Inv s) (hm : s.mode ≠ .halted) {m : Mode} (hm' : m ≠ .halted) : Inv { s with mode := m } :=
  ⟨h.memory, h.index, h.counter, h.entries, h.depth, iff_of_true (h.record.mpr hm) hm'⟩

/-! ### Instructions -/

theorem toNat_addrOperand (nnn : Addr12) : (addrOperand nnn).toNat = nnn.toNat := by
  simp [addrOperand]
  omega

theorem toNat_addrOperand_le (nnn : Addr12) : (addrOperand nnn).toNat ≤ 0xFFF := by
  have := nnn.isLt
  rw [toNat_addrOperand]
  omega

theorem toNat_getV16 (s : State) (x : Nibble) : (s.getV16 x).toNat = (s.getV x).toNat := by
  simp [State.getV16]
  omega

/-- The glyph of the largest byte still starts below 4096 (44_index_memory.md R153). -/
theorem toNat_glyphAddress (s : State) (x : Nibble) : (5#16 * s.getV16 x).toNat = 5 * (s.getV x).toNat := by
  have hb := (s.getV x).isLt
  have h5 : (5#16).toNat * (s.getV16 x).toNat = 5 * (s.getV x).toNat := by rw [toNat_getV16]; rfl
  rw [BitVec.toNat_mul_of_lt (by omega), h5]

theorem effect_inv {i : Instr} (h : Inv s) (hm : s.mode = .running) (hpc : s.pc.toNat ≤ 0xFFE) (hr : raises i s = none) :
    Inv (effect i s) := by
  have hadv := h.advance hpc
  have hnext : s.advance.pc.toNat ≤ 0x1000 := toNat_add_two hpc
  have hrun : s.advance.mode ≠ .halted := by simp [hm]
  cases i
  case cls | ldToDt | ldToSt => exact hadv.setFree ..
  case ret => exact hadv.pop ⟨s.sp.val - 1, by omega⟩ _
  case call nnn => exact (hadv.push hnext _ _).setPc ((toNat_addrOperand_le nnn).trans (by decide))
  case jp nnn => exact hadv.setPc ((toNat_addrOperand_le nnn).trans (by decide))
  case jpV0 nnn =>
    have hn := toNat_addrOperand_le nnn
    have hv := toNat_getV16 s 0x0#4
    have hb := (s.getV 0x0#4).isLt
    refine hadv.setPc ?_
    rw [BitVec.toNat_add_of_lt (by omega)]
    omega
  case seI | sneI | seR | sneR | skp | sknp => exact hadv.skipIf hnext _
  case ldI | addI | ldR | orR | andR | xorR | ldFromDt => exact hadv.setV _ _
  case addR | sub | shr | subn | shl => exact (hadv.setV _ _).setV _ _
  case rnd => exact hadv.setFree ..
  case drw => exact hadv.setFree ..
  case ldIdx nnn =>
    refine hadv.setIndex ?_
    rw [BitVec.toNat_and]
    exact Nat.and_le_right
  case addIdx x =>
    refine hadv.setIndex ?_
    rw [BitVec.toNat_ofNat]
    omega
  case ldFont x =>
    have hb := (s.getV x).isLt
    refine hadv.setIndex ?_
    rw [toNat_glyphAddress]
    omega
  case ldKey => exact (hadv.setMode (m := .awaitingKey) hrun (by decide)).setFree ..
  case ldBcd x =>
    exact hadv.storeBytes (bs := bcdDigits (s.getV x)) (raises_ldBcd_eq_none.mp hr)
  case stRegs x =>
    exact hadv.storeBytes (by rw [length_regRange]; exact raises_stRegs_eq_none.mp hr)
  case ldRegs => exact hadv.setRegs _ _

/-! ### Steps -/

theorem pc_of_fetch_ok {w : Word} (h : s.fetch = .ok w) : s.pc.toNat ≤ 0xFFE := by
  obtain ⟨-, hf⟩ | ⟨-, hf⟩ | ⟨hpc, -⟩ := fetch_cases s
  · rw [hf] at h; cases h
  · rw [hf] at h; cases h
  · exact hpc

theorem awaitStep_inv (h : Inv s) (hm : s.mode = .awaitingKey) : Inv s.awaitStep := by
  have hm' : s.mode ≠ .halted := by simp [hm]
  cases hk : s.key with
  | some k =>
    rw [awaitStep_some hk]
    exact (h.setMode (m := .running) hm' (by decide)).setFree ..
  | none =>
    rw [awaitStep_none hk]
    exact h.setFree ..

/-- The step of a loaded machine answers, but for a halt without a record. -/
theorem step_answers (hl : s.launched = true) (hrec : s.mode = .halted → s.fault ≠ none) : ∃ t, step s = .next t := by
  cases hm : s.mode with
  | halted =>
    obtain ⟨f, hf⟩ := Option.ne_none_iff_exists'.mp (hrec hm)
    exact ⟨_, step_halted hl hm hf⟩
  | awaitingKey => exact ⟨_, step_awaiting hl hm⟩
  | running =>
    cases hf : s.fetch with
    | error f => exact ⟨_, step_fetchFault hl hm hf⟩
    | ok w =>
      cases hd : decode w with
      | unknown u => exact ⟨_, step_unknown hl hm hf hd⟩
      | instr i =>
        rw [step_instr hl hm hf hd]
        exact exec_answers i s

theorem step_inv {t : State} (h : Inv s) (hs : step s = .next t) : Inv t := by
  obtain ⟨-, f, -, rfl⟩ | ⟨hm, rfl⟩ | ⟨-, f, -, rfl⟩ | ⟨hm, w, i, hf, -, he⟩ | ⟨-, w, u, hf, -, rfl⟩ := step_cases hs
  · exact h.setFree ..
  · exact awaitStep_inv h hm
  · exact h.takeFault f
  · obtain ⟨f, -, rfl⟩ | ⟨hr, rfl⟩ := exec_cases he
    · exact h.takeFault f
    · exact effect_inv h hm (pc_of_fetch_ok hf) hr
  · exact (h.advance (pc_of_fetch_ok hf)).setFree ..

/-- Settles O44: the invariant on the record makes the step answer, and every way a step can go keeps the invariant. -/
theorem invariantKeptByStep : Obligations.InvariantKeptByStep := by
  intro s hl h
  have hrec : s.mode = .halted → s.fault ≠ none := fun hm hf => h.record.mp hf hm
  obtain ⟨t, hs⟩ := step_answers hl hrec
  exact ⟨t, hs, step_inv h hs⟩

/-! ### The launch mark -/

theorem effect_launched (i : Instr) (s : State) : (effect i s).launched = s.launched :=
  effect_frame i s .launched (by cases i <;> simp [mayWrite])

theorem step_launched {t : State} (hs : step s = .next t) : t.launched = s.launched := by
  obtain ⟨-, f, -, rfl⟩ | ⟨-, rfl⟩ | ⟨-, f, -, rfl⟩ | ⟨-, w, i, -, -, he⟩ | ⟨-, w, u, -, -, rfl⟩ := step_cases hs
  · rfl
  · cases hk : s.key with
    | some k => rw [awaitStep_some hk]; rfl
    | none => rw [awaitStep_none hk]
  · rfl
  · obtain ⟨f, -, rfl⟩ | ⟨-, rfl⟩ := exec_cases he
    · rfl
    · exact effect_launched i s
  · rfl

/-! ### Transactions -/

theorem reset_inv : Inv State.reset := ⟨rfl, by decide, by decide, fun j => by simp [State.reset], by decide, by decide⟩

/-- The table R42 leaves the font and the image free. -/
theorem constructed_inv (font : Font) : Inv (State.constructed font) :=
  ⟨rfl, reset_inv.index, reset_inv.counter, reset_inv.entries, reset_inv.depth, reset_inv.record⟩

theorem loaded_inv (s : State) {bytes : List Byte} (hb : bytes.length ≤ 3584) : Inv (s.loaded bytes) :=
  ⟨Memory.wf_ofImage (by omega), reset_inv.index, reset_inv.counter, reset_inv.entries, reset_inv.depth, reset_inv.record⟩

/-- Settles O43: reset has the invariant, and it is the constructed machine but for the font and the launch mark. -/
theorem invariantAtReset : Obligations.InvariantAtReset := by
  exact ⟨reset_inv, load_constructed, fun font => ⟨constructed_inv font, step_unlaunched rfl⟩⟩

theorem inv_of_launch (h : Launch s) : Inv s := by
  obtain ⟨s0, bytes, h⟩ := h
  by_cases hb : bytes.length ≤ 3584
  · cases (load_ok s0 hb).symm.trans h
    exact loaded_inv s0 hb
  · cases (load_tooLarge s0 (Nat.lt_of_not_le hb)).symm.trans h

/-- A transaction that is taken answers a state with the invariant; a load that succeeds makes the machine loaded, and nothing
else changes whether it is. -/
theorem transact_inv (tr : Transaction) (h : Inv s) (htaken : s.launched = true ∨ tr ≠ .step) :
    ∃ r t, transact tr s = .next (r, t) ∧ Inv t ∧
      (t.launched = true ↔ s.launched = true ∨ ∃ bytes, tr = .load bytes ∧ bytes.length ≤ 3584) := by
  cases tr with
  | load bytes =>
    by_cases hb : bytes.length ≤ 3584
    · refine ⟨.load .ok, s.loaded bytes, by simp [transact, load_ok s hb], loaded_inv s hb, ?_⟩
      exact iff_of_true rfl (.inr ⟨bytes, rfl, hb⟩)
    · refine ⟨.load .romTooLarge, s, by simp [transact, load_tooLarge s (Nat.lt_of_not_le hb)], h, ?_⟩
      simp [hb]
  | step =>
    have hl : s.launched = true := by simpa using htaken
    obtain ⟨t, hs, ht⟩ := invariantKeptByStep s hl h
    exact ⟨.step t.outcome, t, by simp [transact, hs], ht, by simp [step_launched hs]⟩
  | tickTimers =>
    exact ⟨_, _, rfl, h.setFree .., by simp⟩
  | setKey k =>
    exact ⟨_, _, rfl, h.setFree .., by simp⟩
  | display => exact ⟨_, _, rfl, h, by simp⟩

/-- A loaded machine with the invariant takes every schedule to its end. -/
theorem runSchedule_inv (ts : List Transaction) (hl : s.launched = true) (h : Inv s) :
    ∃ rs u, runSchedule ts s = .next (rs, u) ∧ rs.length = ts.length ∧ u.launched = true ∧ Inv u := by
  induction ts generalizing s with
  | nil => exact ⟨[], s, rfl, rfl, hl, h⟩
  | cons tr ts ih =>
    obtain ⟨r, t, htr, ht, hlt⟩ := transact_inv tr h (.inl hl)
    obtain ⟨rs, u, hrun, hlen, hu, hiu⟩ := ih (hlt.mpr (.inl hl)) ht
    exact ⟨r :: rs, u, by simp [runSchedule, htr, hrun], by simp [hlen], hu, hiu⟩

/-- Settles O45: one transaction by cases, a schedule by induction on its transactions. -/
theorem invariantOnEverySchedule : Obligations.InvariantOnEverySchedule := by
  refine ⟨fun tr s h => ?_, fun s ts hs => runSchedule_inv ts (launched_of_launch hs) (inv_of_launch hs)⟩
  by_cases htaken : s.launched = true ∨ tr ≠ .step
  · exact .inr ⟨htaken, transact_inv tr h htaken⟩
  · simp only [not_or, Bool.not_eq_true, ne_eq, not_not] at htaken
    obtain ⟨hl, rfl⟩ := htaken
    exact .inl ⟨hl, rfl, by simp [transact, step_unlaunched hl]⟩

/-- Settles O39: the fields by `State.loaded`, memory by what a read of an image placed on reset memory gives. -/
theorem loadResetsEverything : Obligations.LoadResetsEverything := by
  refine fun bytes s => ⟨fun hb => ?_, fun hb => load_tooLarge s hb⟩
  refine ⟨s.loaded bytes, load_ok s hb, rfl, rfl, getV_reset, rfl, fun j => by simp [State.reset],
    fun px py => by simp [pixel, State.reset], rfl, rfl, rfl, rfl, rfl, rfl, rfl, rfl, rfl, rfl, fun a _ => ?_⟩
  have hread := Memory.read_ofImage s.font 0x200 bytes a
  change (s.loaded bytes).byteAt a = _ at hread
  rw [hread]
  unfold Memory.unlisted
  by_cases hfont : a < 80
  · rw [if_neg (by omega), dif_pos hfont, dif_pos hfont]
  · rw [dif_neg hfont, dif_neg hfont]
    by_cases hlo : a < 0x200
    · rw [if_neg (by omega), if_pos hlo]
    · simp [hlo, Nat.le_of_not_lt hlo]

end Sys2Proof.Machine
end

section
/-! SUPPORT. Two runs of one step from states that differ in something no rule reads: what decides how the step goes is the same,
so only the answers have to be compared, one by one. -/

namespace Sys2Proof.Machine

/-! ### Comparing two steps -/

/-- What decides how a step goes is the same in both states. -/
structure SameControl (s s' : State) : Prop where
  launched : s'.launched = s.launched
  mode : s'.mode = s.mode
  fault : s'.fault = s.fault
  key : s'.key = s.key
  fetch : s'.fetch = s.fetch
  raises : ∀ i, raises i s' = raises i s

/-- Every answer a step can give in `s` is related to the same answer in `s'`. -/
structure RelatesAnswers (P : State → State → Prop) (s s' : State) : Prop where
  halted : ∀ f, P { s with outcome := .fault f } { s' with outcome := .fault f }
  blocked : P { s with outcome := .blocked } { s' with outcome := .blocked }
  resolved : ∀ k : Nibble, P { s.setV s.wx (k.setWidth 8) with mode := .running, outcome := .ok }
    { s'.setV s'.wx (k.setWidth 8) with mode := .running, outcome := .ok }
  faulted : ∀ f, P (s.takeFault f) (s'.takeFault f)
  unknown : ∀ w, P (s.unknownStep w) (s'.unknownStep w)
  executed : ∀ w i, s.mode = .running → s.fetch = .ok w → decode w = .instr i → raises i s = none →
    P (effect i s) (effect i s')

/-- Steps under the same control give related answers. -/
theorem step_related {P : State → State → Prop} {s s' t : State} (hp : RelatesAnswers P s s') (hc : SameControl s s')
    (hs : step s = .next t) : ∃ t', step s' = .next t' ∧ P t t' := by
  have hl : s'.launched = true := hc.launched.trans (launched_of_step hs)
  obtain ⟨hm, f, hf, rfl⟩ | ⟨hm, rfl⟩ | ⟨hm, f, hf, rfl⟩ | ⟨hm, w, i, hf, hd, he⟩ | ⟨hm, w, u, hf, hd, rfl⟩ := step_cases hs
  · exact ⟨_, step_halted hl (hc.mode.trans hm) (hc.fault.trans hf), hp.halted f⟩
  · refine ⟨_, step_awaiting hl (hc.mode.trans hm), ?_⟩
    cases hk : s.key with
    | some k =>
      rw [awaitStep_some hk, awaitStep_some (hc.key.trans hk)]
      exact hp.resolved k
    | none =>
      rw [awaitStep_none hk, awaitStep_none (hc.key.trans hk)]
      exact hp.blocked
  · exact ⟨_, step_fetchFault hl (hc.mode.trans hm) (hc.fetch.trans hf), hp.faulted f⟩
  · rw [step_instr hl (hc.mode.trans hm) (hc.fetch.trans hf) hd]
    obtain ⟨f, hr, rfl⟩ | ⟨hr, rfl⟩ := exec_cases he
    · exact ⟨_, exec_of_raises ((hc.raises i).trans hr), hp.faulted f⟩
    · exact ⟨_, exec_of_not_raises ((hc.raises i).trans hr), hp.executed w i hm hf hd hr⟩
  · exact ⟨_, step_unknown hl (hc.mode.trans hm) (hc.fetch.trans hf) hd, hp.unknown u⟩

/-! ### Fields that an update leaves unread -/

/-- The update `g` overwrites fields other than `V` and `pc`, so writes of those commute with it. -/
structure Unread (g : State → State) : Prop where
  again : ∀ s, g (g s) = g s
  skip : ∀ s, (g s).skip = g s.skip
  setV : ∀ s r b, (g s).setV r b = g (s.setV r b)

section
variable {g : State → State}

theorem Unread.skipIf (h : Unread g) (s : State) (c : Bool) : g ((g s).skipIf c) = g (s.skipIf c) := by
  cases c with
  | false => exact h.again s
  | true => exact (congrArg g (h.skip s)).trans (h.again s.skip)

theorem Unread.setRegs (h : Unread g) (s : State) (r : Nat) (bs : List Byte) :
    g ((g s).setRegs r bs) = g (s.setRegs r bs) := by
  induction bs generalizing s r with
  | nil => exact h.again s
  | cons b bs ih => rw [State.setRegs, State.setRegs, h.setV, ih]

end

/-- A range of registers is read from `V` alone. -/
theorem regRange_congr {s s' : State} (x : Nibble) (h : s'.v = s.v) : s'.regRange x = s.regRange x := by
  unfold State.regRange
  generalize rangeCount x = k
  generalize 0 = r
  induction k generalizing r with
  | zero => rfl
  | succ k ih => rw [State.regBytes, State.regBytes, ih, getV_congr h]

/-! ### The sound timer and the sound report (10_state.md R32, R39) -/

/-- Other values of the sound timer and the sound report. -/
def State.withSound (s : State) (b : Byte) (c : Bool) : State := { s with st := b, sndRep := c }

theorem unread_sound (b : Byte) (c : Bool) : Unread fun s => s.withSound b c :=
  ⟨fun _ => rfl, fun _ => rfl, fun _ _ _ => rfl⟩

theorem effect_withSound (i : Instr) (s : State) (b : Byte) (c : Bool) :
    (effect i (s.withSound b c)).withSound b c = (effect i s).withSound b c := by
  have h := unread_sound b c
  cases i
  case seI | sneI | seR | sneR | skp | sknp => exact h.skipIf s.advance _
  case stRegs x =>
    have hr := regRange_congr (s := s) (s' := s.withSound b c) x rfl
    exact congrArg (fun bs => (s.advance.storeBytes s.base bs).withSound b c) hr
  case ldRegs => exact h.setRegs s.advance 0 _
  all_goals rfl

/-- The two states agree on everything but the sound timer and the sound report. -/
def SameButSound (t t' : State) : Prop := t = { t' with st := t.st, sndRep := t.sndRep }

theorem sameButSound_of_withSound_eq {t t' : State} {b : Byte} {c : Bool} (h : t'.withSound b c = t.withSound b c) :
    SameButSound t t' :=
  (congrArg (State.withSound · t.st t.sndRep) h.symm :)

theorem answers_withSound (s : State) (b : Byte) (c : Bool) : RelatesAnswers SameButSound s (s.withSound b c) where
  halted _ := rfl
  blocked := rfl
  resolved _ := rfl
  faulted _ := rfl
  unknown _ := rfl
  executed _ i _ _ _ _ := sameButSound_of_withSound_eq (effect_withSound i s b c)

/-- Settles O53: no answer of a step depends on the sound timer or the sound report. -/
theorem soundUnobservableByPrograms : Obligations.SoundUnobservableByPrograms :=
  fun s _ b c hs => step_related (answers_withSound s b c) ⟨rfl, rfl, rfl, rfl, rfl, fun _ => rfl⟩ hs

/-! ### The display (R31, 45_display.md R165) -/

/-- Other display contents. -/
def State.withDisplay (s : State) (fb : FrameBuffer) : State := { s with fb := fb }

theorem unread_display (fb : FrameBuffer) : Unread fun s => s.withDisplay fb :=
  ⟨fun _ => rfl, fun _ => rfl, fun _ _ _ => rfl⟩

/-- Every instruction but DXYN (`hi`) does the same on other display contents. -/
theorem effect_withDisplay {i : Instr} (hi : ∀ x y n, i ≠ .drw x y n) (s : State) (fb : FrameBuffer) :
    (effect i (s.withDisplay fb)).withDisplay fb = (effect i s).withDisplay fb := by
  have h := unread_display fb
  cases i
  case seI | sneI | seR | sneR | skp | sknp => exact h.skipIf s.advance _
  case stRegs x =>
    have hr := regRange_congr (s := s) (s' := s.withDisplay fb) x rfl
    exact congrArg (fun bs => (s.advance.storeBytes s.base bs).withDisplay fb) hr
  case ldRegs => exact h.setRegs s.advance 0 _
  case drw x y n => exact absurd rfl (hi x y n)
  all_goals rfl

/-- The drawings of DXYN on two displays differ in the display and in VF alone. -/
theorem effect_drw_withDisplay (x y n : Nibble) (s : State) (fb : FrameBuffer) :
    OnlyRegs [0xF#4] (effect (.drw x y n) s) (effect (.drw x y n) (s.withDisplay fb)) := by
  intro r hr
  have h := effect_onlyRegs (.drw x y n) s r hr
  have h' := effect_onlyRegs (.drw x y n) (s.withDisplay fb) r hr
  rw [h, h']
  rfl

/-- The answers of a step in `s` on two displays agree on everything but the display and, for a DXYN, VF. -/
def SameButDisplay (s t t' : State) : Prop :=
  t = { t' with fb := t.fb, v := t.v } ∧
    (t.v = t'.v ∨ ∃ w x y n, s.mode = .running ∧ s.fetch = .ok w ∧ decode w = .instr (.drw x y n) ∧ OnlyRegs [0xF#4] t t')

theorem answers_withDisplay (s : State) (fb : FrameBuffer) : RelatesAnswers (SameButDisplay s) s (s.withDisplay fb) where
  halted _ := ⟨rfl, .inl rfl⟩
  blocked := ⟨rfl, .inl rfl⟩
  resolved _ := ⟨rfl, .inl rfl⟩
  faulted _ := ⟨rfl, .inl rfl⟩
  unknown _ := ⟨rfl, .inl rfl⟩
  executed w i hm hf hd _ := by
    by_cases hi : ∃ x y n, i = .drw x y n
    · obtain ⟨x, y, n, rfl⟩ := hi
      exact ⟨rfl, .inr ⟨w, x, y, n, hm, hf, hd, effect_drw_withDisplay x y n s fb⟩⟩
    · have h := (effect_withDisplay (fun x y n e => hi ⟨x, y, n, e⟩) s fb).symm
      have hv : (effect i s).v = (effect i (s.withDisplay fb)).v := (congrArg State.v h :)
      exact ⟨by rw [hv]; exact (congrArg (State.withDisplay · (effect i s).fb) h :), .inl hv⟩

/-- Settles O54: DXYN reads the display for its flag, and no other answer of a step depends on it. -/
theorem displayUnobservableButForCollision : Obligations.DisplayUnobservableButForCollision :=
  fun s _ fb hs => step_related (answers_withDisplay s fb) ⟨rfl, rfl, rfl, rfl, rfl, fun _ => rfl⟩ hs

/-! ### The free entries of the stack (R28) -/

/-- Other stack entries. -/
def State.withStack (s : State) (stk : Vector Word 16) : State := { s with stk := stk }

theorem unread_stack (stk : Vector Word 16) : Unread fun s => s.withStack stk :=
  ⟨fun _ => rfl, fun _ => rfl, fun _ _ _ => rfl⟩

/-- The entries below SP are the same in both stacks. -/
def SameBelow (sp : Nat) (stk stk' : Vector Word 16) : Prop := ∀ j : Fin 16, j.val < sp → stk'[j] = stk[j]

/-- The entry a return pops lies below SP, so it is the same in both stacks. -/
theorem effect_withStack {i : Instr} {s : State} {stk : Vector Word 16} (hstk : SameBelow s.sp.val s.stk stk)
    (hr : raises i s = none) : (effect i (s.withStack stk)).withStack stk = (effect i s).withStack stk := by
  have h := unread_stack stk
  cases i
  case ret =>
    have hsp := raises_ret_eq_none.mp hr
    have htop : stk[s.sp.val - 1] = s.stk[s.sp.val - 1] := hstk ⟨s.sp.val - 1, by omega⟩ (by simp; omega)
    exact congrArg (fun a => { (effect .ret s).withStack stk with pc := a }) htop
  case seI | sneI | seR | sneR | skp | sknp => exact h.skipIf s.advance _
  case stRegs x =>
    have hr := regRange_congr (s := s) (s' := s.withStack stk) x rfl
    exact congrArg (fun bs => (s.advance.storeBytes s.base bs).withStack stk) hr
  case ldRegs => exact h.setRegs s.advance 0 _
  all_goals rfl

/-- A call adds the same entry to both stacks, a return takes the top away, and no other instruction touches them. -/
theorem effect_sameBelow (i : Instr) {s : State} {stk : Vector Word 16} (hstk : SameBelow s.sp.val s.stk stk) :
    SameBelow (effect i s).sp.val (effect i s).stk (effect i (s.withStack stk)).stk := by
  have hkept (hi : .stack ∉ mayWrite i) : SameBelow (effect i s).sp.val (effect i s).stk (effect i (s.withStack stk)).stk := by
    obtain ⟨hs, hsp⟩ := effect_frame i s .stack hi
    obtain ⟨hs', -⟩ := effect_frame i (s.withStack stk) .stack hi
    rw [hs, hsp, hs']
    exact hstk
  cases i
  case ret => exact fun j hj => hstk j (lt_of_lt_of_le hj (Nat.sub_le _ 1))
  case call nnn =>
    intro j hj
    have hj' : j.val < min (s.sp.val + 1) 16 := hj
    change (stk.setIfInBounds s.sp.val (s.pc + 2#16))[j] = (s.stk.setIfInBounds s.sp.val (s.pc + 2#16))[j]
    by_cases he : s.sp.val = j.val
    · simp [he]
    · simpa [Vector.getElem_setIfInBounds, he] using hstk j (by omega)
  all_goals exact hkept (by simp [mayWrite])

/-- The two states agree on everything but the stack entries at SP and above. -/
def SameButFreeStack (t t' : State) : Prop := t = { t' with stk := t.stk } ∧ SameBelow t.sp.val t.stk t'.stk

theorem answers_withStack {s : State} {stk : Vector Word 16} (hstk : SameBelow s.sp.val s.stk stk) :
    RelatesAnswers SameButFreeStack s (s.withStack stk) where
  halted _ := ⟨rfl, hstk⟩
  blocked := ⟨rfl, hstk⟩
  resolved _ := ⟨rfl, hstk⟩
  faulted _ := ⟨rfl, hstk⟩
  unknown _ := ⟨rfl, hstk⟩
  executed _ i _ _ _ hr :=
    ⟨(congrArg (State.withStack · (effect i s).stk) (effect_withStack hstk hr).symm :), effect_sameBelow i hstk⟩

/-- Settles O55: of the stack a step reads the top entry alone. -/
theorem freeStackEntriesUnobservable : Obligations.FreeStackEntriesUnobservable :=
  fun _ _ _ hstk hs => step_related (answers_withStack hstk) ⟨rfl, rfl, rfl, rfl, rfl, fun _ => rfl⟩ hs

end Sys2Proof.Machine
end

section
/-! SUPPORT. Memory (20_memory.md): the fetch reads big-endian, FX33 and FX55 store exactly their range, the next fetch sees
what they stored, and a range that reaches 4096 faults with nothing transferred. -/

namespace Sys2Proof.Machine

/-! ### Words of class F (30_encoding.md R83) -/

/-- The fields of the formats XIMM and XSUB put side by side are the fields ORed into the row's fixed bits. -/
theorem wordXByte_eq_xImmWord (op x : Nibble) (b : Byte) : wordXByte op x b = xImmWord (wordAddr op 0#12) x b := by
  apply BitVec.eq_of_getLsbD_eq
  intro i hi
  rw [getLsbD_wordXByte]
  simp only [xImmWord, BitVec.getLsbD_or, getLsbD_wordAddr, BitVec.getLsbD_shiftLeft, BitVec.getLsbD_setWidth]
  by_cases h8 : i < 8
  · simp [h8, hi, show i < 12 by omega]
  · have hb : b.getLsbD i = false := BitVec.getLsbD_of_ge b i (by omega)
    by_cases h12 : i < 12
    · simp [h8, h12, hi, hb, show i - 8 < 16 by omega]
    · simp [h8, h12, hi, hb, show 4 ≤ i - 8 by omega]

theorem encodes_classF {i : Instr} {x : Nibble} {b : Byte} (henc : encode i = wordXByte 0xF#4 x b)
    (hdec : decode (wordXByte 0xF#4 x b) = .instr i) : Encodes i (xImmWord 0xF000#16 x b) := by
  have hw : wordXByte 0xF#4 x b = xImmWord 0xF000#16 x b := wordXByte_eq_xImmWord 0xF#4 x b
  rw [← hw]
  exact ⟨henc, hdec⟩

theorem encodes_ldBcd (x : Nibble) : Encodes (.ldBcd x) (xImmWord 0xF000#16 x 0x33#8) :=
  encodes_classF rfl (by simp [decode, decodeClassF])

theorem encodes_stRegs (x : Nibble) : Encodes (.stRegs x) (xImmWord 0xF000#16 x 0x55#8) :=
  encodes_classF rfl (by simp [decode, decodeClassF])

/-! ### Fetch -/

theorem fetch_of_pc_le {s : State} (h : s.pc.toNat ≤ 0xFFE) :
    s.fetch = .ok (wordOfBytes (s.byteAt s.pc.toNat) (s.byteAt (s.pc.toNat + 1))) := by
  obtain ⟨hpc, -⟩ | ⟨hpc, -⟩ | ⟨-, hf⟩ := fetch_cases s
  · omega
  · omega
  · exact hf

/-- Settles O8: below 0xFFF the fetch reads both bytes, and the word is their concatenation. -/
theorem fetchIsBigEndian : Obligations.FetchIsBigEndian :=
  fun _ hpc => ⟨_, fetch_of_pc_le hpc, toNat_wordOfBytes _ _⟩

/-! ### Reading back what FX33 and FX55 store -/

theorem byteAt_storeBytes_add (s : State) (a : Nat) {bs : List Byte} {j : Nat} (hj : j < bs.length) :
    (s.storeBytes a bs).byteAt (a + j) = bs.getD j 0#8 := by
  rw [byteAt_storeBytes, if_pos (by omega), Nat.add_sub_cancel_left]

theorem byteAt_effect_ldBcd (x : Nibble) (s : State) {j : Nat} (hj : j < 3) :
    (effect (.ldBcd x) s).byteAt (s.i.toNat + j) = (bcdDigits (s.getV x)).getD j 0#8 :=
  byteAt_storeBytes_add s.advance s.base hj

theorem byteAt_effect_stRegs (x : Nibble) (s : State) {k : Nibble} (hk : k.toNat ≤ x.toNat) :
    (effect (.stRegs x) s).byteAt (s.i.toNat + k.toNat) = s.getV k := by
  have hlt : k.toNat < rangeCount x := Nat.lt_succ_of_le hk
  calc (effect (.stRegs x) s).byteAt (s.i.toNat + k.toNat)
      = (s.regRange x).getD k.toNat 0#8 := byteAt_storeBytes_add s.advance s.base (by rwa [length_regRange])
    _ = s.getV (BitVec.ofNat 4 (0 + k.toNat)) := getD_regBytes s 0 _ _ hlt
    _ = s.getV k := by rw [Nat.zero_add, BitVec.ofNat_toNat, BitVec.setWidth_eq]

/-- The three digits of a byte fit into a byte each (44_index_memory.md R154). -/
theorem toNat_bcdDigits (b : Byte) :
    ((bcdDigits b).getD 0 0#8).toNat = b.toNat / 100 ∧ ((bcdDigits b).getD 1 0#8).toNat = b.toNat / 10 % 10 ∧
      ((bcdDigits b).getD 2 0#8).toNat = b.toNat % 10 := by
  have hb := b.isLt
  simp only [bcdDigits, List.getD_cons_zero, List.getD_cons_succ, BitVec.toNat_ofNat]
  omega

/-- Settles O29: FX33 leaves its effect, a store of the three digits. -/
theorem bcdDigitsStored : Obligations.BcdDigitsStored := by
  intro s x
  refine ⟨encodes_ldBcd x, fun hr => ⟨effect (.ldBcd x) s, exec_of_not_raises (raises_ldBcd_eq_none.mpr hr), ?_⟩⟩
  obtain ⟨hundreds, tens, ones⟩ := toNat_bcdDigits (s.getV x)
  rw [← byteAt_effect_ldBcd x s (by decide)] at hundreds tens ones
  exact ⟨hundreds, tens, ones, effect_onlyBytes (.ldBcd x) s, ⟨effect_pc s rfl, rfl⟩, effect_frame (.ldBcd x) s⟩

/-- Settles O30: FX55 leaves its effect, a store of `V[0..X]`. -/
theorem registersStored : Obligations.RegistersStored := by
  intro s x
  refine ⟨encodes_stRegs x, fun hr => ⟨effect (.stRegs x) s, exec_of_not_raises (raises_stRegs_eq_none.mpr hr), ?_⟩⟩
  exact ⟨fun k hk => byteAt_effect_stRegs x s hk, effect_onlyBytes (.stRegs x) s, ⟨effect_pc s rfl, rfl⟩,
    effect_frame (.stRegs x) s⟩

/-- Settles O49: the fetch reads the memory FX55 stored into, and its two bytes are the stored registers. -/
theorem storeSeenByNextFetch : Obligations.StoreSeenByNextFetch := by
  intro s x k hr hk hpc
  have hnext : (effect (.stRegs x) s).pc.toNat = s.i.toNat + k.toNat := by rw [effect_pc s rfl, hpc]
  have hsucc : (k + 1#4).toNat = k.toNat + 1 := by
    have hx := regIndex_lt x
    rw [BitVec.toNat_add]
    exact Nat.mod_eq_of_lt (show k.toNat + 1 < 16 by omega)
  refine ⟨effect (.stRegs x) s, _, exec_of_not_raises (raises_stRegs_eq_none.mpr hr), fetch_of_pc_le (by omega), ?_⟩
  rw [toNat_wordOfBytes, hnext, Nat.add_assoc, ← hsucc, byteAt_effect_stRegs x s hk.le, byteAt_effect_stRegs x s (by omega)]

/-! ### A range that reaches 4096 -/

theorem exec_faultTaken_of_raises {i : Instr} {s : State} {f : FaultRecord} (h : raises i s = some f) :
    ∃ t, exec i s = .next t ∧ FaultTaken f s t :=
  ⟨_, exec_of_raises h, faultTaken_takeFault f s⟩

/-- Settles O32: the table R210 lists the fault of each of the four ranges, and a listed fault is taken at entry. -/
theorem dataRangeFaults : Obligations.DataRangeFaults := by
  intro s x y n
  refine ⟨fun hn hr => ?drw, fun hr => ?bcd, fun hr => ⟨?store, ?load⟩⟩
  case drw => exact exec_faultTaken_of_raises (if_pos ⟨hn, by omega⟩)
  all_goals exact exec_faultTaken_of_raises (if_pos (by omega))

end Sys2Proof.Machine
end

section
/-! SUPPORT. The decoder and the encoder are inverse to each other (30_encoding.md R83, R84), and the words the decoder rejects
are those of the six classes R76. -/

namespace Sys2Proof

/-! ### Decoding what was encoded -/

theorem decode_encode (i : Instr) : decode (encode i) = .instr i := by
  cases i
  case cls | ret => rfl
  case ldR | orR | andR | xorR | addR | sub | shr | subn | shl => simp [encode, decode, decodeClass8]
  case skp | sknp => simp [encode, decode, decodeClassE]
  case ldFromDt | ldKey | ldToDt | ldToSt | addIdx | ldFont | ldBcd | stRegs | ldRegs => simp [encode, decode, decodeClassF]
  all_goals simp [encode, decode]

/-- Settles O2: the word of an instruction decodes to it, and its two bytes hold that word. -/
theorem decodeOfEncodeIsIdentity : Obligations.DecodeOfEncodeIsIdentity := by
  refine fun i rest _ => ⟨decode_encode i, ?_⟩
  calc decodeBytes (encodeBytes i ++ rest)
      = some (decode (wordOfBytes (hiByte (encode i)) (loByte (encode i))), rest) := rfl
    _ = some (.instr i, rest) := by rw [wordOfBytes_hi_lo, decode_encode]

/-! ### A word is its fields put side by side (R71, R72) -/

theorem wordAddr_fields {w : Word} {op : Nibble} (hop : (opField w).toNat = op.toNat) : wordAddr op (nnnField w) = w := by
  apply BitVec.eq_of_toNat_eq
  rw [toNat_wordAddr, ← hop, toNat_opField, toNat_nnnField]
  omega

theorem wordXByte_fields {w : Word} {op : Nibble} {b : Byte} (hop : (opField w).toNat = op.toNat)
    (hb : (nnField w).toNat = b.toNat) : wordXByte op (xField w) b = w := by
  apply BitVec.eq_of_toNat_eq
  rw [toNat_wordXByte, ← hop, ← hb, toNat_opField, toNat_xField, toNat_nnField]
  omega

theorem nibbles_fields {w : Word} {op n : Nibble} (hop : (opField w).toNat = op.toNat) (hn : (nField w).toNat = n.toNat) :
    nibbles op (xField w) (yField w) n = w := by
  apply BitVec.eq_of_toNat_eq
  rw [toNat_nibbles, ← hop, ← hn, toNat_opField, toNat_xField, toNat_yField, toNat_nField]
  omega

/-! ### Encoding what was decoded -/

section
variable {w : Word} {i : Instr}

theorem encode_of_decodeClass8 (hop : (opField w).toNat = 0x8) (h : decodeClass8 w = .instr i) : encode i = w := by
  unfold decodeClass8 at h
  split at h <;> cases h
  all_goals exact nibbles_fields hop ‹_›

theorem encode_of_decodeClassE (hop : (opField w).toNat = 0xE) (h : decodeClassE w = .instr i) : encode i = w := by
  unfold decodeClassE at h
  split at h <;> cases h
  all_goals exact wordXByte_fields hop ‹_›

theorem encode_of_decodeClassF (hop : (opField w).toNat = 0xF) (h : decodeClassF w = .instr i) : encode i = w := by
  unfold decodeClassF at h
  split at h <;> cases h
  all_goals exact wordXByte_fields hop ‹_›

/-- The case `h_k` below is the opcode class `k - 1`; each class is put together again from the fields its format has. -/
theorem encode_of_decode (h : decode w = .instr i) : encode i = w := by
  unfold decode at h
  split at h
  case h_1 =>
    split_ifs at h with hcls hret <;> cases h
    · exact hcls.symm
    · exact hret.symm
  case h_6 hop | h_10 hop =>
    split_ifs at h with hn
    cases h
    exact nibbles_fields hop (congrArg _ hn)
  case h_9 hop => exact encode_of_decodeClass8 hop h
  case h_15 hop => exact encode_of_decodeClassE hop h
  case h_16 hop => exact encode_of_decodeClassF hop h
  all_goals cases h
  case h_2 hop | h_3 hop | h_11 hop | h_12 hop => exact wordAddr_fields hop
  case h_14 hop => exact nibbles_fields hop rfl
  all_goals exact wordXByte_fields ‹_› rfl

end

/-- Settles O3: every class of the decoder keeps all the fields of its words. -/
theorem encodeOfDecodeIsIdentity : Obligations.EncodeOfDecodeIsIdentity := fun _ _ => encode_of_decode

/-! ### Unknown words -/

theorem word_of_decode_unknown {w u : Word} (h : decode w = .unknown u) : u = w := by
  unfold decode decodeClass8 decodeClassE decodeClassF at h
  dsimp only at h
  repeat' split at h
  all_goals cases h
  all_goals rfl

theorem decode_cases (w : Word) : (∃ i, decode w = .instr i) ∨ decode w = .unknown w := by
  cases h : decode w with
  | instr i => exact .inl ⟨i, rfl⟩
  | unknown u => exact .inr (congrArg _ (word_of_decode_unknown h))

theorem decodeClass8_eq_unknown_iff (w : Word) :
    decodeClass8 w = .unknown w ↔ w.toNat % 16 ∈ [0x8, 0x9, 0xA, 0xB, 0xC, 0xD, 0xF] := by
  have hlt := (nField w).isLt
  rw [← toNat_nField]
  unfold decodeClass8
  dsimp only
  generalize (nField w).toNat = n at *
  interval_cases n <;> simp

theorem decodeClassE_eq_unknown_iff (w : Word) : decodeClassE w = .unknown w ↔ w.toNat % 256 ∉ [0x9E, 0xA1] := by
  rw [← toNat_nnField]
  unfold decodeClassE
  split <;> simp_all

theorem decodeClassF_eq_unknown_iff (w : Word) :
    decodeClassF w = .unknown w ↔ w.toNat % 256 ∉ [0x07, 0x0A, 0x15, 0x18, 0x1E, 0x29, 0x33, 0x55, 0x65] := by
  rw [← toNat_nnField]
  unfold decodeClassF
  dsimp only
  split <;> simp_all

/-- Settles O6: class by class, each with the condition its branch of the decoder tests. -/
theorem unknownWordClasses : Obligations.UnknownWordClasses := by
  intro w
  have hlt := w.isLt
  have hop : (opField w).toNat = w.toNat / 4096 := by rw [toNat_opField]; omega
  have hcls : w = 0x00E0#16 ↔ w.toNat = 0x00E0 := BitVec.toNat_inj.symm
  have hret : w = 0x00EE#16 ↔ w.toNat = 0x00EE := BitVec.toNat_inj.symm
  have hn : nField w = 0x0#4 ↔ w.toNat % 16 = 0 := by rw [← toNat_nField]; exact BitVec.toNat_inj.symm
  have hclass : w.toNat / 4096 < 16 := by omega
  unfold decode
  rw [hop]
  clear hop
  generalize w.toNat / 4096 = c at *
  interval_cases c
  · simp only [hcls, hret]
    split_ifs <;> simp [*]
  all_goals simp [hn, decodeClass8_eq_unknown_iff, decodeClassE_eq_unknown_iff, decodeClassF_eq_unknown_iff]

end Sys2Proof
end

section
/-! SUPPORT. The opcode table R74 as data: a word that selects a row decodes to the row's instruction with the operands its
fields hold, and assembly (30_encoding.md R83) is the way back. -/

namespace Sys2Proof
open Machine (addrWord xImmWord xynWord)
open Laws

/-! ### Formats (R72) -/

/-- The bits that select a row of this format. -/
def Format.mask : Format → Word
  | .fix => 0xFFFF#16
  | .addr | .xImm | .xyn => 0xF000#16
  | .xy => 0xF00F#16
  | .xSub => 0xF0FF#16

/-- The two words agree in the fields that select a row of this format. -/
def Format.SameKey (w f : Word) : Format → Prop
  | .fix => w = f
  | .addr | .xImm | .xyn => opField w = opField f
  | .xy => opField w = opField f ∧ nField w = nField f
  | .xSub => opField w = opField f ∧ nnField w = nnField f

/-- The operands a word of this format holds. -/
def Format.operandsOf (w : Word) : Format → Operands
  | .fix => .none
  | .addr => .addr (nnnField w).toNat
  | .xImm => .xImm (xField w).toNat (nnField w).toNat
  | .xy => .xy (xField w).toNat (yField w).toNat
  | .xyn => .xyn (xField w).toNat (yField w).toNat (nField w).toNat
  | .xSub => .xSub (xField w).toNat

/-- The mask of a row is the one of its format, and the operand bits of its match are 0. -/
theorem row_mask : ∀ r ∈ rows, r.mask = r.format.mask ∧ r.fixed &&& r.mask = r.fixed := by decide

theorem sameKey_and_mask (w : Word) (format : Format) : format.SameKey w (w &&& format.mask) := by
  cases format
  case fix => exact BitVec.and_allOnes.symm
  case xy => simp [Format.SameKey, Format.mask, and_F00F]
  case xSub => simp [Format.SameKey, Format.mask, and_F0FF]
  all_goals simp [Format.SameKey, Format.mask, and_F000]

/-! ### Rows and the decoder -/

/-- The fields that select a row are those the decoder tests, so it reaches the branch of that row's instruction. -/
theorem decode_of_selects {k : Nat} {r : Row} {w : Word} (hk : rows[k]? = some r) (h : w &&& r.mask = r.fixed) :
    ∃ i, decode w = .instr i ∧ rowIndex i = k ∧ i.operands = r.format.operandsOf w := by
  have hkey : r.format.SameKey w r.fixed := by
    obtain ⟨hmask, -⟩ := row_mask r (List.mem_of_getElem? hk)
    rw [← h, hmask]
    exact sameKey_and_mask w r.format
  clear h
  have hlt : k < 34 := (List.getElem?_eq_some_iff.mp hk).1
  interval_cases k
  all_goals
    cases hk
    simp only [Format.SameKey] at hkey
    simp only [decode, decodeClass8, decodeClassE, decodeClassF, hkey]
    exact ⟨_, rfl, rfl, rfl⟩

theorem selects_encode (i : Instr) : RowMatch.Statement i := by
  cases i
  exacts [RowMatch.cls, RowMatch.ret, RowMatch.jp _, RowMatch.call _, RowMatch.seI _ _, RowMatch.sneI _ _, RowMatch.seR _ _,
    RowMatch.ldI _ _, RowMatch.addI _ _, RowMatch.ldR _ _, RowMatch.orR _ _, RowMatch.andR _ _, RowMatch.xorR _ _,
    RowMatch.addR _ _, RowMatch.sub _ _, RowMatch.shr _ _, RowMatch.subn _ _, RowMatch.shl _ _, RowMatch.sneR _ _,
    RowMatch.ldIdx _, RowMatch.jpV0 _, RowMatch.rnd _ _, RowMatch.drw _ _ _, RowMatch.skp _, RowMatch.sknp _,
    RowMatch.ldFromDt _, RowMatch.ldKey _, RowMatch.ldToDt _, RowMatch.ldToSt _, RowMatch.addIdx _, RowMatch.ldFont _,
    RowMatch.ldBcd _, RowMatch.stRegs _, RowMatch.ldRegs _]

theorem row_of_decode {w : Word} {i : Instr} (h : decode w = .instr i) :
    ∃ r, rows[rowIndex i]? = some r ∧ w &&& r.mask = r.fixed := by
  obtain ⟨r, hr, hsel⟩ := selects_encode i
  rw [encode_of_decode h] at hsel
  exact ⟨r, hr, of_decide_eq_true hsel⟩

/-- Settles O4: a decoded word is its instruction's word, which selects the instruction's row; a word that selects a row decodes. -/
theorem decoderFollowsOpcodeTable : Obligations.DecoderFollowsOpcodeTable := by
  refine fun w => ⟨fun i h => row_of_decode h, fun u hu => ⟨word_of_decode_unknown hu, fun r hr hsel => ?_⟩⟩
  obtain ⟨k, hk⟩ := List.mem_iff_getElem?.mp hr
  obtain ⟨i, hi, -⟩ := decode_of_selects hk hsel
  cases hi.symm.trans hu

/-- Settles O5: the decoder has one answer, and the row a word selects is that answer's row. -/
theorem opcodeRowsAreDisjoint : Obligations.OpcodeRowsAreDisjoint := by
  refine ⟨rfl, fun w j k rj rk hj hk hselj hselk => ?_, decode_cases⟩
  obtain ⟨i, hi, rfl, -⟩ := decode_of_selects hj hselj
  obtain ⟨i', hi', rfl, -⟩ := decode_of_selects hk hselk
  cases hi.symm.trans hi'
  rfl

/-! ### Fields ORed into the fixed bits are fields put side by side (R83) -/

theorem nibbles_eq_wordXByte (op x : Nibble) : nibbles op x 0#4 0#4 = wordXByte op x 0#8 := by
  apply BitVec.eq_of_toNat_eq
  simp [toNat_nibbles, toNat_wordXByte]

theorem addrWord_eq_wordAddr (op : Nibble) (nnn : Addr12) : addrWord (nibbles op 0#4 0#4 0#4) nnn = wordAddr op nnn := by
  apply BitVec.eq_of_getLsbD_eq
  intro i hi
  rw [addrWord, BitVec.getLsbD_or, getLsbD_nibbles, getLsbD_wordAddr]
  interval_cases i <;> simp

theorem xImmWord_eq_wordXByte (op x : Nibble) (b c : Byte) : xImmWord (wordXByte op 0#4 b) x c = wordXByte op x (b ||| c) := by
  apply BitVec.eq_of_getLsbD_eq
  intro i hi
  rw [xImmWord, BitVec.getLsbD_or, BitVec.getLsbD_or, getLsbD_wordXByte, getLsbD_wordXByte]
  interval_cases i <;> simp

theorem xynWord_eq_nibbles (op x y n m : Nibble) : xynWord (nibbles op 0#4 0#4 n) x y m = nibbles op x y (n ||| m) := by
  apply BitVec.eq_of_getLsbD_eq
  intro i hi
  rw [xynWord, BitVec.getLsbD_or, BitVec.getLsbD_or, BitVec.getLsbD_or, getLsbD_nibbles, getLsbD_nibbles]
  interval_cases i <;> simp

/-! ### Assembly, format by format -/

section
variable (name : String) (f m : Word) (x y n : Nibble)

theorem assemble_addr (nnn : Addr12) : assemble ⟨name, f, m, .addr⟩ (.addr nnn.toNat) = some (addrWord f nnn) := by
  simp [assemble, Operands.wellFormed, Operands.addrOk, nnn.isLt, addrWord]

theorem assemble_xImm (nn : Byte) : assemble ⟨name, f, m, .xImm⟩ (.xImm x.toNat nn.toNat) = some (xImmWord f x nn) := by
  simp [assemble, Operands.wellFormed, Operands.regOk, Operands.immOk, x.isLt, nn.isLt, xImmWord]

theorem assemble_xy : assemble ⟨name, f, m, .xy⟩ (.xy x.toNat y.toNat) = some (xynWord f x y 0#4) := by
  simp [assemble, Operands.wellFormed, Operands.regOk, x.isLt, y.isLt, xynWord]

theorem assemble_xyn : assemble ⟨name, f, m, .xyn⟩ (.xyn x.toNat y.toNat n.toNat) = some (xynWord f x y n) := by
  simp [assemble, Operands.wellFormed, Operands.regOk, Operands.rowsOk, x.isLt, y.isLt, n.isLt, xynWord]

theorem assemble_xSub : assemble ⟨name, f, m, .xSub⟩ (.xSub x.toNat) = some (xImmWord f x 0#8) := by
  simp [assemble, Operands.wellFormed, Operands.regOk, x.isLt, xImmWord]

/-- The one-operand spelling of a shift is the two-operand one with Y = 0 (R81). -/
theorem assemble_shift (k : Nat) : assemble ⟨name, f, m, .xy⟩ (.xSub k) =
    if name = "SHR" ∨ name = "SHL" then assemble ⟨name, f, m, .xy⟩ (.xy k 0) else none := by
  by_cases hname : name = "SHR" ∨ name = "SHL" <;> simp [assemble, Operands.wellFormed, Operands.regOk, hname]

end

/-- Assembling the operands a word holds under the row it selects gives the word back. -/
theorem assemble_operandsOf {r : Row} {w : Word} (hm : r.mask = r.format.mask) (h : w &&& r.mask = r.fixed) :
    assemble r (r.format.operandsOf w) = some w := by
  obtain ⟨name, fixed, mask, format⟩ := r
  dsimp only at hm h ⊢
  subst hm h
  cases format
  case fix => exact congrArg some BitVec.and_allOnes
  case addr => rw [Format.operandsOf, assemble_addr, Format.mask, and_F000, addrWord_eq_wordAddr, wordAddr_fields rfl]
  case xImm =>
    rw [Format.operandsOf, assemble_xImm, Format.mask, and_F000, nibbles_eq_wordXByte, xImmWord_eq_wordXByte, BitVec.zero_or,
      wordXByte_fields rfl rfl]
  case xy =>
    rw [Format.operandsOf, assemble_xy, Format.mask, and_F00F, xynWord_eq_nibbles, BitVec.or_zero, nibbles_fields rfl rfl]
  case xyn =>
    rw [Format.operandsOf, assemble_xyn, Format.mask, and_F000, xynWord_eq_nibbles, BitVec.zero_or, nibbles_fields rfl rfl]
  case xSub =>
    rw [Format.operandsOf, assemble_xSub, Format.mask, and_F0FF, xImmWord_eq_wordXByte, BitVec.or_zero, wordXByte_fields rfl rfl]

/-! ### Operands as written (R81) -/

theorem exists_nibble {x : Nat} (h : Operands.regOk x = true) : ∃ b : Nibble, b.toNat = x :=
  ⟨.ofNatLT x (of_decide_eq_true h), rfl⟩

theorem exists_byte {nn : Nat} (h : Operands.immOk nn = true) : ∃ b : Byte, b.toNat = nn :=
  ⟨.ofNatLT nn (of_decide_eq_true h), rfl⟩

theorem exists_addr12 {nnn : Nat} (h : Operands.addrOk nnn = true) : ∃ b : Addr12, b.toNat = nnn :=
  ⟨.ofNatLT nnn (of_decide_eq_true h), rfl⟩

theorem assemble_eq_none {ops : Operands} (r : Row) (h : ops.wellFormed = false) : assemble r ops = none := by
  simp [assemble, h]

theorem wellFormed_of_assemble {r : Row} {ops : Operands} {w : Word} (h : assemble r ops = some w) : ops.wellFormed = true := by
  cases hwf : ops.wellFormed with
  | true => rfl
  | false => cases (assemble_eq_none r hwf).symm.trans h

/-- An assembled word selects the row and holds the operands it was assembled from, a shift written with one operand Y = 0.
Operands of another format than the row's assemble to nothing. -/
theorem selects_assembled {r : Row} {ops : Operands} {w : Word} (hm : r.mask = r.format.mask)
    (hf : r.fixed &&& r.mask = r.fixed) (h : assemble r ops = some w) :
    w &&& r.mask = r.fixed ∧ (r.format.operandsOf w = ops ∨ ∃ x, ops = .xSub x ∧ r.format.operandsOf w = .xy x 0) := by
  have hwf := wellFormed_of_assemble h
  obtain ⟨name, fixed, mask, format⟩ := r
  dsimp only at hm hf ⊢
  subst hm
  cases format <;> cases ops <;> simp only [Operands.wellFormed, Bool.and_eq_true] at hwf
  case fix.none =>
    cases h
    exact ⟨hf, .inl rfl⟩
  case addr.addr nnn =>
    obtain ⟨nnn, rfl⟩ := exists_addr12 hwf
    cases (assemble_addr ..).symm.trans h
    rw [Format.mask, and_F000] at hf
    rw [← hf, addrWord_eq_wordAddr]
    simp [Format.mask, Format.operandsOf, and_F000]
  case xImm.xImm x nn =>
    obtain ⟨⟨x, rfl⟩, nn, rfl⟩ := hwf.imp exists_nibble exists_byte
    cases (assemble_xImm ..).symm.trans h
    rw [Format.mask, and_F000] at hf
    rw [← hf, nibbles_eq_wordXByte, xImmWord_eq_wordXByte]
    simp [Format.mask, Format.operandsOf, and_F000, nibbles_eq_wordXByte]
  case xy.xy x y =>
    obtain ⟨⟨x, rfl⟩, y, rfl⟩ := hwf.imp exists_nibble exists_nibble
    cases (assemble_xy ..).symm.trans h
    rw [Format.mask, and_F00F] at hf
    rw [← hf, xynWord_eq_nibbles]
    simp [Format.mask, Format.operandsOf, and_F00F]
  case xy.xSub x =>
    obtain ⟨x, rfl⟩ := exists_nibble hwf
    obtain ⟨-, h⟩ := Option.ite_none_right_eq_some.mp ((assemble_shift ..).symm.trans h)
    cases (assemble_xy name fixed _ x 0#4).symm.trans h
    rw [Format.mask, and_F00F] at hf
    rw [← hf, xynWord_eq_nibbles]
    simp [Format.mask, Format.operandsOf, and_F00F]
  case xyn.xyn x y n =>
    obtain ⟨⟨⟨x, rfl⟩, y, rfl⟩, n, rfl⟩ := hwf.imp (And.imp exists_nibble exists_nibble) exists_nibble
    cases (assemble_xyn ..).symm.trans h
    rw [Format.mask, and_F000] at hf
    rw [← hf, xynWord_eq_nibbles]
    simp [Format.mask, Format.operandsOf, and_F000]
  case xSub.xSub x =>
    obtain ⟨x, rfl⟩ := exists_nibble hwf
    cases (assemble_xSub ..).symm.trans h
    rw [Format.mask, and_F0FF] at hf
    rw [← hf, xImmWord_eq_wordXByte]
    simp [Format.mask, Format.operandsOf, and_F0FF]
  all_goals simp [assemble] at h

theorem assemble_operands (i : Instr) : ∃ r, rows[rowIndex i]? = some r ∧ assemble r i.operands = some (encode i) := by
  obtain ⟨r, hr, hsel⟩ := row_of_decode (decode_encode i)
  obtain ⟨i', hi', -, hops⟩ := decode_of_selects hr hsel
  cases (decode_encode i).symm.trans hi'
  obtain ⟨hm, -⟩ := row_mask r (List.mem_of_getElem? hr)
  exact ⟨r, hr, by rw [hops, assemble_operandsOf hm hsel]⟩

/-- Settles O7: an assembled word selects its row, so it decodes to the row's instruction with the operands it holds. -/
theorem assembledWordDecodesToItsOperands : Obligations.AssembledWordDecodesToItsOperands := by
  refine ⟨fun r _ ops h => assemble_eq_none r h, fun r hr ops w h => ?_, assemble_operands⟩
  obtain ⟨hm, hf⟩ := row_mask r hr
  obtain ⟨hsel, hops⟩ := selects_assembled hm hf h
  obtain ⟨k, hk⟩ := List.mem_iff_getElem?.mp hr
  obtain ⟨i, hi, rfl, hi'⟩ := decode_of_selects hk hsel
  rw [← hi'] at hops
  exact ⟨i, hi, hk, hops⟩

/-! ### Assembly lines and disassembly (R81, R84) -/

theorem assembleRow_operands (i : Instr) : assembleRow (rowIndex i) i.operands = some (encode i) := by
  obtain ⟨r, hr, hasm⟩ := assemble_operands i
  rw [assembleRow, hr]
  exact hasm

theorem assembleRow_shift {k : Nat} {r : Row} (hr : rows[k]? = some r) (hf : r.format = .xy)
    (hname : r.mnemonic = "SHR" ∨ r.mnemonic = "SHL") (x : Nat) : assembleRow k (.xSub x) = assembleRow k (.xy x 0) := by
  obtain ⟨name, f, m, format⟩ := r
  cases hf
  rw [assembleRow, assembleRow, hr]
  exact (assemble_shift ..).trans (if_pos hname)

/-- The line of an instruction is that of its row and operands, except for a shift with Y = 0, which is written with X alone. -/
theorem assembleLine_lineOf (i : Instr) : assembleLine (lineOf i).1 (lineOf i).2 = some (encode i) := by
  have h := assembleRow_operands i
  cases i
  case shr x y | shl x y =>
    by_cases hy : y = 0#4
    · subst hy
      exact (assembleRow_shift rfl rfl (by decide) x.toNat).trans h
    · rw [lineOf, if_neg hy]
      exact h
  all_goals exact h

theorem disassemble_of_instr {w : Word} {i : Instr} (h : decode w = .instr i) :
    disassemble w = .line (lineOf i).1 (lineOf i).2 := by
  rw [disassemble, h]

theorem disassemble_of_unknown {w u : Word} (h : decode w = .unknown u) : disassemble w = .byte (hiByte w) (loByte w) := by
  rw [disassemble, h, word_of_decode_unknown h]

theorem assembled_disassemble (w : Word) : (disassemble w).assembled = some w := by
  cases h : decode w with
  | instr i => rw [disassemble_of_instr h, Disassembly.assembled, assembleLine_lineOf, encode_of_decode h]
  | unknown u => rw [disassemble_of_unknown h, Disassembly.assembled, wordOfBytes_hi_lo]

/-- Settles O60: the line of a decoded word assembles to the instruction's word, which is that word. -/
theorem reassemblyRestoresWord : Obligations.ReassemblyRestoresWord := by
  refine fun w => ⟨assembled_disassemble w, fun i h => ⟨_, _, disassemble_of_instr h⟩, fun x y h hy => ?shr,
    fun x y h hy => ?shl, fun u h => disassemble_of_unknown h⟩
  all_goals rw [disassemble_of_instr h, lineOf, if_neg hy, regArg, regArg]

end Sys2Proof
end

section
/-! SUPPORT. Arithmetic instructions that leave a result in `V[X]` and then the flag in VF (43_alu.md R130), and the shifts. -/

namespace Sys2Proof.Machine

/-! ### A result and the flag -/

/-- An instruction of the format XY is encoded as its row's match with X and Y ORed in (30_encoding.md R83). -/
theorem encodes_xy {i : Instr} (op n : Nibble) {x y : Nibble} (henc : encode i = nibbles op x y n) :
    Encodes i (xynWord (nibbles op 0#4 0#4 n) x y 0#4) := by
  rw [xynWord_eq_nibbles, BitVec.or_zero, ← henc]
  exact ⟨rfl, decode_encode i⟩

theorem writesRegs_setResultAndFlag (s : State) (x : Nibble) (b : Byte) (c : Bool) :
    WritesRegs [x, 0xF#4] s (s.advance.setResultAndFlag x b c) :=
  ⟨⟨rfl, rfl⟩, fun r hr => onlyRegs_setResultAndFlag s.advance x b c r (by simpa [or_comm] using hr),
    (Frame.refl _ s).advance.setResultAndFlag (by simp) x b c⟩

theorem toNat_flagByte (c : Bool) : (flagByte c).toNat = c.toNat := by cases c <;> rfl

theorem toNat_getV_vf_setResultAndFlag (s : State) (x : Nibble) (b : Byte) (c : Bool) :
    ((s.setResultAndFlag x b c).getV 0xF#4).toNat = c.toNat :=
  (congrArg BitVec.toNat (getV_setResultAndFlag s x b c 0xF#4)).trans (toNat_flagByte c)

theorem getV_setResultAndFlag_dest (s : State) {x : Nibble} (hx : x ≠ 0xF#4) (b : Byte) (c : Bool) :
    (s.setResultAndFlag x b c).getV x = b := by
  rw [getV_setResultAndFlag, if_neg (show ¬vf = x from hx.symm), if_pos rfl]

/-! ### The shifts (R139, R141) -/

theorem toNat_bitOutRight (b : Byte) : (bitOutRight b).toNat = b.toNat % 2 := by
  rw [bitOutRight, BitVec.getLsbD, Nat.toNat_testBit]
  omega

theorem toNat_bitOutLeft (b : Byte) : (bitOutLeft b).toNat = b.toNat / 128 := by
  have hb := b.isLt
  rw [bitOutLeft, BitVec.getLsbD, Nat.toNat_testBit]
  omega

theorem toNat_shiftRight_one (b : Byte) : (b >>> 1).toNat = b.toNat / 2 := by
  rw [BitVec.toNat_ushiftRight, Nat.shiftRight_eq_div_pow, pow_one]

theorem toNat_shiftLeft_one (b : Byte) : (b <<< 1).toNat = 2 * b.toNat % 256 := by
  rw [BitVec.toNat_shiftLeft, Nat.shiftLeft_eq, pow_one, mul_comm]

/-- Settles O18: a shift leaves its result in `V[X]`, then the bit shifted out in VF, and its meaning does not mention Y. -/
theorem shiftsWithBitOut : Obligations.ShiftsWithBitOut := by
  intro s x y
  refine ⟨⟨encodes_xy 0x8#4 0x6#4 rfl, _, rfl, ?_, fun hx => ?_, writesRegs_setResultAndFlag .., fun _ => rfl⟩,
    ⟨encodes_xy 0x8#4 0xE#4 rfl, _, rfl, ?_, fun hx => ?_, writesRegs_setResultAndFlag .., fun _ => rfl⟩⟩
  · exact (toNat_getV_vf_setResultAndFlag ..).trans (toNat_bitOutRight _)
  · rw [getV_setResultAndFlag_dest _ hx, toNat_shiftRight_one]
  · exact (toNat_getV_vf_setResultAndFlag ..).trans (toNat_bitOutLeft _)
  · rw [getV_setResultAndFlag_dest _ hx, toNat_shiftLeft_one]

end Sys2Proof.Machine
end

section
/-! SUPPORT. The `step` transaction, one way it can go at a time (40_step_cycle.md R92 to R100, R107), and what no step changes
(R108). -/

namespace Sys2Proof.Machine

variable {ps : List Part} {s t : State}

/-! ### Frames of the parts of a step -/

theorem Frame.setOutcome (h : Frame ps s t) (o : StepOutcome) : Frame ps s { t with outcome := o } := by
  intro p hp
  cases p <;> exact h _ hp

theorem Frame.setMode (h : Frame ps s t) (hw : .mode ∈ ps) (m : Mode) : Frame ps s { t with mode := m } := by
  intro p hp
  cases p with
  | mode => exact absurd hw hp
  | _ => exact h _ hp

theorem Frame.setFault (h : Frame ps s t) (hw : .fault ∈ ps) (f : Option FaultRecord) : Frame ps s { t with fault := f } := by
  intro p hp
  cases p with
  | fault => exact absurd hw hp
  | _ => exact h _ hp

theorem takeFault_frame (f : FaultRecord) (s : State) : Frame [.mode, .fault] s (s.takeFault f) :=
  (((Frame.refl [.mode, .fault] s).setMode (by simp) .halted).setFault (by simp) (some f)).setOutcome (.fault f)

theorem unknownStep_frame (w : Word) (s : State) : Frame [] s (s.unknownStep w) :=
  ((Frame.refl [] s).setPc (s.pc + 2#16)).setOutcome (.unknownOpcode w)

theorem awaitStep_frame (s : State) : Frame [.regs, .mode] s s.awaitStep := by
  cases hk : s.key with
  | some k =>
    rw [awaitStep_some hk]
    exact (((Frame.refl [.regs, .mode] s).setV (by simp) s.wx _).setMode (by simp) .running).setOutcome .ok
  | none =>
    rw [awaitStep_none hk]
    exact (Frame.refl _ s).setOutcome _

/-! ### What a step changes -/

/-- A step changes a kind of state beside the registers, the mode and the fault record only by the effect of a fetched instruction
with that kind in its row of the table R43. -/
theorem step_samePart {p : Part} (hs : step s = .next t) (hp : p ∉ [.regs, .mode, .fault]) :
    SamePart p s t ∨
      ∃ w i, s.mode = .running ∧ s.fetch = .ok w ∧ decode w = .instr i ∧ p ∈ mayWrite i ∧ t = effect i s := by
  simp only [List.mem_cons, List.not_mem_nil, or_false, not_or] at hp
  obtain ⟨hregs, hmode, hfault⟩ := hp
  have htaken (f : FaultRecord) : SamePart p s (s.takeFault f) := takeFault_frame f s p (by simp [hmode, hfault])
  obtain ⟨-, f, -, rfl⟩ | ⟨-, rfl⟩ | ⟨-, f, -, rfl⟩ | ⟨hm, w, i, hf, hd, he⟩ | ⟨-, w, u, -, -, rfl⟩ := step_cases hs
  · exact .inl ((Frame.refl [] s).setOutcome _ p (by simp))
  · exact .inl (awaitStep_frame s p (by simp [hregs, hmode]))
  · exact .inl (htaken f)
  · obtain ⟨f, -, rfl⟩ | ⟨-, rfl⟩ := exec_cases he
    · exact .inl (htaken f)
    · by_cases hw : p ∈ mayWrite i
      · exact .inr ⟨w, i, hm, hf, hd, hw, rfl⟩
      · exact .inl (effect_frame i s p hw)
  · exact .inl (unknownStep_frame u s p (by simp))

theorem key_not_mem_mayWrite (i : Instr) : .key ∉ mayWrite i := by cases i <;> simp [mayWrite]

theorem report_not_mem_mayWrite (i : Instr) : .report ∉ mayWrite i := by cases i <;> simp [mayWrite]

/-- FX15 alone has the delay timer in its row (R43). -/
theorem delay_mem_mayWrite {i : Instr} (h : .delay ∈ mayWrite i) : ∃ x, i = .ldToDt x := by
  cases i
  case ldToDt x => exact ⟨x, rfl⟩
  all_goals simp [mayWrite] at h

/-- FX18 alone has the sound timer in its row (R43). -/
theorem sound_mem_mayWrite {i : Instr} (h : .sound ∈ mayWrite i) : ∃ x, i = .ldToSt x := by
  cases i
  case ldToSt x => exact ⟨x, rfl⟩
  all_goals simp [mayWrite] at h

theorem step_key (hs : step s = .next t) : t.key = s.key := by
  obtain h | ⟨_, i, -, -, -, hw, -⟩ := step_samePart (p := .key) hs (by simp)
  · exact h
  · exact absurd hw (key_not_mem_mayWrite i)

theorem step_sndRep (hs : step s = .next t) : t.sndRep = s.sndRep := by
  obtain h | ⟨_, i, -, -, -, hw, -⟩ := step_samePart (p := .report) hs (by simp)
  · exact h
  · exact absurd hw (report_not_mem_mayWrite i)

theorem step_dt (hs : step s = .next t) :
    t.dt = s.dt ∨ ∃ w x, s.mode = .running ∧ s.fetch = .ok w ∧ decode w = .instr (.ldToDt x) ∧ t.dt = s.getV x := by
  obtain h | ⟨w, i, hm, hf, hd, hw, rfl⟩ := step_samePart (p := .delay) hs (by simp)
  · exact .inl h
  · obtain ⟨x, rfl⟩ := delay_mem_mayWrite hw
    exact .inr ⟨w, x, hm, hf, hd, rfl⟩

theorem step_st (hs : step s = .next t) :
    t.st = s.st ∨ ∃ w x, s.mode = .running ∧ s.fetch = .ok w ∧ decode w = .instr (.ldToSt x) ∧ t.st = s.getV x := by
  obtain h | ⟨w, i, hm, hf, hd, hw, rfl⟩ := step_samePart (p := .sound) hs (by simp)
  · exact .inl h
  · obtain ⟨x, rfl⟩ := sound_mem_mayWrite hw
    exact .inr ⟨w, x, hm, hf, hd, rfl⟩

/-- Settles O47: of these four only the timers stand in rows of the table R43, each in the row of the one instruction that sets it. -/
theorem stepNeverTicksOrSetsKey : Obligations.StepNeverTicksOrSetsKey :=
  fun _ _ hs => ⟨step_key hs, step_sndRep hs, step_dt hs, step_st hs⟩

/-! ### The ways a step can go -/

/-- The first offending address of a fetch beyond 0xFFE (R94). -/
theorem fetch_of_lt_pc (h : 0xFFE < s.pc.toNat) :
    s.fetch = .error (.addressOutOfRange (BitVec.ofNat 16 (max s.pc.toNat 4096)) s.pc) := by
  obtain ⟨hpc, hf⟩ | ⟨hpc, hf⟩ | ⟨hpc, -⟩ := fetch_cases s
  · rw [hf, Nat.max_eq_left hpc, BitVec.ofNat_toNat, BitVec.setWidth_eq]
  · rw [hf, hpc]
    rfl
  · omega

/-- Settles O9: the fetch fails, and the step takes its fault. -/
theorem fetchBeyondMemoryFaults : Obligations.FetchBeyondMemoryFaults :=
  fun s hl hm hpc => ⟨_, step_fetchFault hl hm (fetch_of_lt_pc hpc), faultTaken_takeFault _ s⟩

/-- Settles O10: the word fetched is the one the two bytes make. -/
theorem stepRunsDecodedInstruction : Obligations.StepRunsDecodedInstruction := by
  intro s i rest hl hm hpc h
  have hd : decode (wordOfBytes (s.byteAt s.pc.toNat) (s.byteAt (s.pc.toNat + 1))) = .instr i :=
    congrArg Prod.fst (Option.some.inj h)
  exact step_instr hl hm (fetch_of_pc_le hpc) hd

/-- Settles O11: the step is `State.unknownStep`, which advances and reports. -/
theorem unknownOpcodeOnlyAdvances : Obligations.UnknownOpcodeOnlyAdvances :=
  fun s w hl hm hf hd => ⟨s.unknownStep w, step_unknown hl hm hf hd, rfl, rfl, hm, unknownStep_frame w s⟩

/-- Settles O12: the step reports the record again. -/
theorem haltedStepRepeatsFault : Obligations.HaltedStepRepeatsFault :=
  fun _ _ hl hm hf => ⟨_, step_halted hl hm hf, rfl, rfl⟩

/-- Settles O13: the step is `State.awaitStep`, by whether a key is latched. -/
theorem awaitingStepResolvesOnKey : Obligations.AwaitingStepResolvesOnKey := by
  intro s hl hm
  have hstep := step_awaiting hl hm
  have hframe := awaitStep_frame s
  constructor
  · intro k hk
    rw [awaitStep_some hk] at hstep hframe
    have hv : ((s.setV s.wx (k.setWidth 8)).getV s.wx).toNat = k.toNat := by
      rw [getV_setV, if_pos rfl, BitVec.toNat_setWidth_of_le (by decide)]
    exact ⟨_, hstep, hv, rfl, rfl, rfl, onlyRegs_setV s s.wx _, hframe⟩
  · intro hk
    rw [awaitStep_none hk] at hstep
    exact ⟨_, hstep, rfl, rfl⟩

end Sys2Proof.Machine
end

section
/-! SUPPORT. The transactions beside `load` and `step`: ticks and the sound report (40_step_cycle.md R101, R102), the key latch and
the display (R103, R104). -/

namespace Sys2Proof.Machine

variable {ps : List Part} {s t u : State}

/-! ### Ticks -/

theorem Frame.trans (h : Frame ps s t) (h' : Frame ps t u) : Frame ps s u := by
  intro p hp
  have hst := h p hp
  have htu := h' p hp
  cases p with
  | regs | mem => exact fun a => Eq.trans (htu a) (hst a)
  | stack => exact ⟨htu.1.trans hst.1, htu.2.trans hst.2⟩
  | _ => exact Eq.trans htu hst

theorem tickTimers_frame (s : State) : Frame [.delay, .sound, .report] s (tickTimers s).2 := by
  intro p hp
  cases p with
  | delay | sound | report => simp at hp
  | regs => exact fun r => getV_congr (tickTimers_v s) r
  | mem => exact fun a => byteAt_congr (tickTimers_mem s) (tickTimers_font s) a
  | stack => exact ⟨tickTimers_stk s, tickTimers_sp s⟩
  | _ => rfl

/-- Settles O40, by induction on the number of ticks. -/
theorem ticksCountDownToZero : Obligations.TicksCountDownToZero := by
  intro k
  induction k with
  | zero => exact fun s => ⟨rfl, rfl, rfl, rfl, Frame.refl _ s⟩
  | succ k ih =>
    intro s
    obtain ⟨hdt, hst, hpc, hout, hframe⟩ := ih (tickTimers s).2
    rw [tickTimers_dt, toNat_tickDown] at hdt
    rw [tickTimers_st, toNat_tickDown] at hst
    rw [ticks]
    exact ⟨by omega, by omega, hpc, hout, (tickTimers_frame s).trans hframe⟩

/-! ### The sound report -/

theorem soundEdge_eq_stopped_iff (rep before after : Bool) :
    soundEdge rep before after = .stopped ↔ (rep = true ∨ before = true) ∧ after = false := by
  revert rep before after
  decide

theorem soundEdge_eq_started_iff (rep before after : Bool) :
    soundEdge rep before after = .started ↔ rep = false ∧ after = true := by
  revert rep before after
  decide

theorem soundRequested_iff (s : State) : s.soundRequested = true ↔ 0 < s.st.toNat := decide_eq_true_iff

theorem soundRequested_eq_false_iff (s : State) : s.soundRequested = false ↔ s.st = 0#8 := by
  rw [← Bool.not_eq_true, soundRequested_iff, Nat.pos_iff_ne_zero, not_not, ← BitVec.toNat_inj]
  rfl

/-- The report of a tick, and the bit it leaves, in terms of the sound request before and after it (R102). -/
theorem tickTimers_report (s : State) :
    (tickTimers s).1 = soundEdge s.sndRep s.soundRequested (tickTimers s).2.soundRequested ∧
      (tickTimers s).2.sndRep = (tickTimers s).2.soundRequested := ⟨rfl, rfl⟩

/-- Settles O41: the formula of R102 read as conditions on `SND_REP` and `ST`, then at `ST` = 1 and on a silent machine. -/
theorem soundEdgeReports : Obligations.SoundEdgeReports := by
  intro s
  obtain ⟨hedge, hrep⟩ := tickTimers_report s
  have hstopped : (tickTimers s).1 = .stopped ↔ (s.sndRep = true ∨ 0 < s.st.toNat) ∧ (tickTimers s).2.st = 0#8 := by
    rw [hedge, soundEdge_eq_stopped_iff, soundRequested_iff, soundRequested_eq_false_iff]
  refine ⟨hstopped, ?_, ?_, fun hone => ?_, fun hzero hquiet => ?_⟩
  · rw [hedge, soundEdge_eq_started_iff, soundRequested_iff]
  · rw [hrep, soundRequested_iff]
  · have hafter : (tickTimers s).2.st = 0#8 := by rw [tickTimers_st, hone]; rfl
    exact ⟨hstopped.mpr ⟨.inr (by simp [hone]), hafter⟩, hafter⟩
  · have hafter : (tickTimers s).2.st = 0#8 := by rw [tickTimers_st, hzero]; rfl
    rw [hedge, hquiet, (soundRequested_eq_false_iff s).mpr hzero, (soundRequested_eq_false_iff _).mpr hafter]
    rfl

/-! ### The key latch and the display -/

/-- Settles O42: the transactions are `setKey`, a write of the latch, and `display`, a read. -/
theorem keyAndDisplayTransactions : Obligations.KeyAndDisplayTransactions :=
  fun s k => ⟨⟨setKey k s, rfl, setKey_key s k, rfl⟩, rfl⟩

end Sys2Proof.Machine
end

section
/-! SUPPORT. Control transfer (41_flow.md R110 to R114): jumps, calls and returns. -/

namespace Sys2Proof.Machine

variable {s : State}

/-! ### Jumps -/

/-- An instruction of the format ADDR is encoded as its row's match with NNN ORed in (30_encoding.md R83). -/
theorem encodes_addr {i : Instr} {nnn : Addr12} (op : Nibble) (henc : encode i = wordAddr op nnn) :
    Encodes i (addrWord (nibbles op 0#4 0#4 0#4) nnn) := by
  rw [addrWord_eq_wordAddr, ← henc]
  exact ⟨rfl, decode_encode i⟩

/-- The sum of BNNN is at most 0xFF + 0xFFF, so it does not wrap (41_flow.md R114). -/
theorem toNat_effect_jpV0_pc (nnn : Addr12) (s : State) :
    (effect (.jpV0 nnn) s).pc.toNat = (s.getV 0x0#4).toNat + nnn.toNat := by
  have hv : (s.getV16 0x0#4).toNat = (s.getV 0x0#4).toNat := toNat_getV16 s 0x0#4
  have hn : (addrOperand nnn).toNat = nnn.toNat := toNat_addrOperand nnn
  calc (s.getV16 0x0#4 + addrOperand nnn).toNat
      = (s.getV16 0x0#4).toNat + (addrOperand nnn).toNat := BitVec.toNat_add_of_lt (by omega)
    _ = (s.getV 0x0#4).toNat + nnn.toNat := by rw [hv, hn]

/-- Settles O20: both jumps leave their effect, and a step from a target beyond 0xFFE is `fetchBeyondMemoryFaults`. -/
theorem jumpTargets : Obligations.JumpTargets := by
  intro s nnn
  refine ⟨⟨encodes_addr 0x1#4 rfl, effect (.jp nnn) s, rfl, toNat_addrOperand nnn, rfl, effect_frame (.jp nnn) s, ?jp⟩,
    ⟨encodes_addr 0xB#4 rfl, effect (.jpV0 nnn) s, rfl, toNat_effect_jpV0_pc nnn s, rfl, effect_frame (.jpV0 nnn) s, ?jpV0⟩⟩
  case jp =>
    rintro hl hm rfl
    exact fetchBeyondMemoryFaults (effect (.jp 0xFFF#12) s) hl hm (by decide : 0xFFE < (addrOperand 0xFFF#12).toNat)
  case jpV0 =>
    intro hl hm hpc
    obtain ⟨u, hstep, hfault⟩ := fetchBeyondMemoryFaults (effect (.jpV0 nnn) s) hl hm hpc
    exact ⟨u, _, hstep, hfault⟩

/-! ### Calls and returns -/

theorem effect_call_sp (nnn : Addr12) (h : s.sp.val ≠ 16) : (effect (.call nnn) s).sp.val = s.sp.val + 1 :=
  Nat.min_eq_left (by omega)

theorem effect_call_stk (nnn : Addr12) (s : State) (j : Fin 16) :
    (effect (.call nnn) s).stk[j] = if j.val = s.sp.val then s.pc + 2#16 else s.stk[j] :=
  (Vector.getElem_setIfInBounds j.isLt).trans (if_congr eq_comm rfl rfl)

theorem effect_ret_sp (h : s.sp.val ≠ 0) : (effect .ret s).sp.val + 1 = s.sp.val :=
  Nat.sub_one_add_one h

theorem effect_ret_pc {j : Fin 16} (h : j.val + 1 = s.sp.val) : (effect .ret s).pc = s.stk[j] := by
  have hj : s.sp.val - 1 = j.val := by omega
  simp only [effect, hj]
  rfl

/-- Settles O21: with room on the stack the call leaves its effect, on a full stack it takes the fault that R210 lists. -/
theorem callPushesReturnAddress : Obligations.CallPushesReturnAddress := by
  intro s nnn
  refine ⟨encodes_addr 0x2#4 rfl, fun hroom => ?room, fun hfull => exec_faultTaken_of_raises (if_pos hfull)⟩
  exact ⟨effect (.call nnn) s, exec_of_not_raises (raises_call_eq_none.mpr hroom), toNat_addrOperand nnn, rfl,
    effect_call_sp nnn hroom, effect_call_stk nnn s, effect_frame (.call nnn) s⟩

/-- Settles O22: with an entry on the stack the return leaves its effect, on an empty stack it takes the fault that R210 lists. -/
theorem returnPopsTop : Obligations.ReturnPopsTop := by
  intro s
  refine ⟨⟨rfl, decode_encode .ret⟩, fun hentry => ?entry, fun hempty => exec_faultTaken_of_raises (if_pos hempty)⟩
  exact ⟨effect .ret s, exec_of_not_raises (raises_ret_eq_none.mpr hentry), effect_ret_sp hentry, rfl,
    fun j hj => effect_ret_pc hj, rfl, effect_frame .ret s⟩

/-- Settles O51: the entry `returnPopsTop` reads is the one `callPushesReturnAddress` wrote; both keep every other entry. -/
theorem callThenReturn : Obligations.CallThenReturn := by
  intro s nnn hroom
  obtain ⟨-, hpushes, -⟩ := callPushesReturnAddress s nnn
  obtain ⟨t, hcall, -, -, hpush, hpushed, hframe⟩ := hpushes hroom
  obtain ⟨-, hpops, -⟩ := returnPopsTop t
  obtain ⟨u, hret, hpop, hkept, hpopped, -, hframe'⟩ := hpops (by omega)
  refine ⟨t, u, hcall, hret, ?pc, Fin.ext (by omega), fun j hj => ?entry, hframe.trans hframe'⟩
  case pc =>
    have htop := hpushed ⟨s.sp.val, by omega⟩
    rw [if_pos rfl] at htop
    exact (hpopped _ hpush.symm).trans htop
  case entry => rw [hkept, hpushed, if_neg hj]

end Sys2Proof.Machine
end

section
/-! SUPPORT. Conditional skips (42_skip.md R120 to R124). -/

namespace Sys2Proof.Machine

/-- An instruction of the format XIMM is encoded as its row's match with X and NN ORed in (30_encoding.md R83). -/
theorem encodes_xImm {i : Instr} (op : Nibble) {x : Nibble} {nn : Byte} (henc : encode i = wordXByte op x nn) :
    Encodes i (xImmWord (wordAddr op 0#12) x nn) := by
  rw [← wordXByte_eq_xImmWord, ← henc]
  exact ⟨rfl, decode_encode i⟩

/-- A skip comes on top of the advance, so a taken one is 4 from the instruction's own address (R120). -/
theorem advance_skipIf_pc (s : State) (c : Bool) : (s.advance.skipIf c).pc = s.pc + if c then 4#16 else 2#16 := by
  cases c with
  | false => rfl
  | true => exact BitVec.add_assoc s.pc 2#16 2#16

/-- The comparison of a skip is one of unsigned values (R120). -/
theorem advance_skipIf_eq_pc (s : State) (a b : Byte) :
    (s.advance.skipIf (decide (a = b))).pc = s.pc + if a.toNat = b.toNat then 4#16 else 2#16 := by
  simp only [advance_skipIf_pc, decide_eq_true_eq, BitVec.toNat_inj]

/-- Skipping where two values differ is the complement of skipping where they are equal (R122). -/
theorem advance_skipIf_ne_pc (s : State) (a b : Byte) :
    (s.advance.skipIf (decide (a ≠ b))).pc = s.pc + if a.toNat = b.toNat then 2#16 else 4#16 := by
  simp only [advance_skipIf_pc, decide_eq_true_eq, BitVec.toNat_inj, ne_eq, ite_not]

theorem advance_skipIf_outcome (s : State) (c : Bool) : (s.advance.skipIf c).outcome = .ok := skipIf_outcome s.advance c

/-- Settles O23: each answers outright with the advance and a skip, taken by its comparison; its row of the table R43 is empty. -/
theorem registerSkips : Obligations.RegisterSkips := by
  intro s x y nn
  exact ⟨⟨encodes_xImm 0x3#4 rfl, _, rfl, advance_skipIf_eq_pc .., advance_skipIf_outcome .., effect_frame (.seI x nn) s⟩,
    ⟨encodes_xImm 0x4#4 rfl, _, rfl, advance_skipIf_ne_pc .., advance_skipIf_outcome .., effect_frame (.sneI x nn) s⟩,
    ⟨encodes_xy 0x5#4 0x0#4 rfl, _, rfl, advance_skipIf_eq_pc .., advance_skipIf_outcome .., effect_frame (.seR x y) s⟩,
    ⟨encodes_xy 0x9#4 0x0#4 rfl, _, rfl, advance_skipIf_ne_pc .., advance_skipIf_outcome .., effect_frame (.sneR x y) s⟩⟩

end Sys2Proof.Machine
end

section
/-! SUPPORT. Instructions that leave a result in `V[X]` and no flag: immediates, copy and logic (43_alu.md R131 to R136). -/

namespace Sys2Proof.Machine

/-- With no flag after it, a result in `V[X]` is the whole effect beside the advance, VF kept unless it is X (R131 to R136). -/
theorem writesRegs_setV (s : State) (x : Nibble) (b : Byte) : WritesRegs [x] s (s.advance.setV x b) :=
  ⟨⟨rfl, rfl⟩, onlyRegs_setV s.advance x b, (Frame.refl _ s).advance.setV (by simp) x b⟩

theorem getV_setV_self (s : State) (x : Nibble) (b : Byte) : (s.setV x b).getV x = b := by
  rw [getV_setV, if_pos rfl]

/-- Settles O14: each answers outright with its result in `V[X]`; the sum of 7XNN is one of bytes, so the carry out is lost. -/
theorem immediateAndCopyResults : Obligations.ImmediateAndCopyResults := by
  intro s x y nn
  refine ⟨⟨encodes_xImm 0x6#4 rfl, _, rfl, getV_setV_self .., writesRegs_setV ..⟩,
    ⟨encodes_xImm 0x7#4 rfl, _, rfl, ?sum, writesRegs_setV ..⟩,
    ⟨encodes_xy 0x8#4 0x0#4 rfl, _, rfl, getV_setV_self .., writesRegs_setV ..⟩⟩
  case sum => rw [getV_setV_self, BitVec.toNat_add]

/-- Settles O15: each answers outright with its result in `V[X]`, and a bit of the result is the operation on those two bits. -/
theorem logicResults : Obligations.LogicResults := by
  intro s x y
  refine ⟨⟨encodes_xy 0x8#4 0x1#4 rfl, _, rfl, fun k => ?or, writesRegs_setV ..⟩,
    ⟨encodes_xy 0x8#4 0x2#4 rfl, _, rfl, fun k => ?and, writesRegs_setV ..⟩,
    ⟨encodes_xy 0x8#4 0x3#4 rfl, _, rfl, fun k => ?xor, writesRegs_setV ..⟩⟩
  case or => rw [getV_setV_self, BitVec.getLsbD_or]
  case and => rw [getV_setV_self, BitVec.getLsbD_and]
  case xor => rw [getV_setV_self, BitVec.getLsbD_xor]

end Sys2Proof.Machine
end

section
/-! SUPPORT. The address register and the memory transfers (44_index_memory.md): what ANNN and FX1E leave in I, and that FX55
and FX65 undo each other on their range. -/

namespace Sys2Proof.Machine

/-! ### Writing I -/

/-- The mask of ANNN is redundant on a 12-bit field (R151). -/
theorem toNat_effect_ldIdx_i (nnn : Addr12) (s : State) : (effect (.ldIdx nnn) s).i.toNat = nnn.toNat := by
  calc (addrOperand nnn &&& 0x0FFF#16).toNat
      = nnn.toNat &&& (2 ^ 12 - 1) := by rw [BitVec.toNat_and, toNat_addrOperand]; rfl
    _ = nnn.toNat := Nat.and_two_pow_sub_one_of_lt_two_pow nnn.isLt

/-- The sum of FX1E wraps within 12 bits, so the 16-bit I holds it whole (R152). -/
theorem toNat_effect_addIdx_i (x : Nibble) (s : State) :
    (effect (.addIdx x) s).i.toNat = (s.i.toNat + (s.getV x).toNat) % 4096 := by
  refine (BitVec.toNat_ofNat _ 16).trans (Nat.mod_eq_of_lt ?_)
  exact (Nat.mod_lt _ (by decide)).trans (by decide : 4096 < 2 ^ 16)

/-- Settles O27: both answer outright with their effect, and the row of each in the table R43 is I alone. -/
theorem indexLoadAndAdd : Obligations.IndexLoadAndAdd := by
  intro s x nnn
  exact ⟨⟨encodes_addr 0xA#4 rfl, _, rfl, toNat_effect_ldIdx_i nnn s, ⟨rfl, rfl⟩, effect_frame (.ldIdx nnn) s⟩,
    ⟨encodes_xImm 0xF#4 rfl, _, rfl, toNat_effect_addIdx_i x s, ⟨rfl, rfl⟩, effect_frame (.addIdx x) s⟩⟩

/-! ### Registers to memory and back -/

/-- What FX65 leaves in a register of its range (R156). -/
theorem getV_effect_ldRegs (x : Nibble) (s : State) {k : Nibble} (hk : k.toNat ≤ x.toNat) :
    (effect (.ldRegs x) s).getV k = s.byteAt (s.i.toNat + k.toNat) := by
  have hlt : k.toNat < rangeCount x := Nat.lt_succ_of_le hk
  have hlen : 0 + (s.loadBytes s.base (rangeCount x)).length ≤ 16 := by
    rw [length_loadBytes, Nat.zero_add]
    exact rangeCount_le x
  calc (effect (.ldRegs x) s).getV k
      = (s.loadBytes s.base (rangeCount x)).getD k.toNat 0#8 := by
        refine (getV_setRegs s.advance 0 _ hlen k).trans (if_pos ⟨Nat.zero_le _, ?_⟩)
        rwa [length_loadBytes, Nat.zero_add]
    _ = s.byteAt (s.i.toNat + k.toNat) := getD_loadBytes s _ _ _ hlt

/-- An address of the range `I..I+X` is `I + k` for a register `k` of `V[0..X]`. -/
theorem exists_reg_of_mem_range {x : Nibble} {base a : Nat} (h : base ≤ a ∧ a < base + rangeCount x) :
    ∃ k : Nibble, k.toNat ≤ x.toNat ∧ base + k.toNat = a := by
  obtain ⟨hlo, hhi⟩ := h
  have hcount : rangeCount x = x.toNat + 1 := rfl
  have hx := regIndex_lt x
  have hk : (BitVec.ofNat 4 (a - base)).toNat = a - base := Nat.mod_eq_of_lt (show a - base < 16 by omega)
  exact ⟨BitVec.ofNat 4 (a - base), by omega, by omega⟩

/-- Settles O50: FX65 reads at `I + k` the byte that FX55 stored there for `V[k]`; in the other order each byte of the
range is stored as it was loaded, and FX55 leaves every byte outside it. -/
theorem storeThenLoadRestores : Obligations.StoreThenLoadRestores := by
  intro s x hr
  refine ⟨⟨effect (.stRegs x) s, exec_of_not_raises (raises_stRegs_eq_none.mpr hr), fun u hi hmem => ?restores⟩, ?rewrites⟩
  case restores =>
    have hi' : u.i = s.i := hi
    have hload : raises (.ldRegs x) u = none := raises_ldRegs_eq_none.mpr (by rwa [State.base, hi'])
    refine ⟨effect (.ldRegs x) u, exec_of_not_raises hload, fun k hk => ?_⟩
    rw [getV_effect_ldRegs x u hk, hmem, hi', byteAt_effect_stRegs x s hk]
  case rewrites =>
    have hi : (effect (.ldRegs x) s).i = s.i := effect_frame (.ldRegs x) s .index (by simp [mayWrite])
    have hmem : ∀ a, (effect (.ldRegs x) s).byteAt a = s.byteAt a := effect_frame (.ldRegs x) s .mem (by simp [mayWrite])
    obtain ⟨-, hstores⟩ := registersStored (effect (.ldRegs x) s) x
    obtain ⟨w, hstore, hrange, hrest, -, -⟩ := hstores (by rwa [hi])
    refine ⟨_, w, exec_of_not_raises (raises_ldRegs_eq_none.mpr hr), hstore, fun a => ?_⟩
    by_cases ha : s.i.toNat ≤ a ∧ a < s.i.toNat + rangeCount x
    · obtain ⟨k, hk, rfl⟩ := exists_reg_of_mem_range ha
      calc w.byteAt (s.i.toNat + k.toNat)
          = (effect (.ldRegs x) s).getV k := hi ▸ hrange k hk
        _ = s.byteAt (s.i.toNat + k.toNat) := getV_effect_ldRegs x s hk
    · rw [hrest a (by rwa [State.base, hi]), hmem]

end Sys2Proof.Machine
end

section
/-! SUPPORT. The display (45_display.md R160 to R164): 00E0 blanks it; DXYN flips exactly the pixels its sprite covers and
reports in VF whether one of them was on, so the same DXYN again undoes the first. -/

namespace Sys2Proof.Machine

/-! ### 00E0 -/

theorem pixel_blank (px : Fin 64) (py : Fin 32) : pixel (Vector.replicate 32 0#64) px py = false := by
  simp [pixel]

/-- Settles O33: 00E0 answers outright with a blank display, and its row of the table R43 is the display alone. -/
theorem clearDisplay : Obligations.ClearDisplay :=
  ⟨⟨rfl, decode_encode .cls⟩, fun s => ⟨_, rfl, pixel_blank, ⟨rfl, rfl⟩, effect_frame .cls s⟩⟩

/-! ### DXYN -/

theorem encodes_drw (x y n : Nibble) : Encodes (.drw x y n) (xynWord 0xD000#16 x y n) := by
  have hw : xynWord 0xD000#16 x y n = nibbles 0xD#4 x y (0#4 ||| n) := xynWord_eq_nibbles 0xD#4 x y 0#4 n
  rw [hw, BitVec.zero_or]
  exact ⟨rfl, decode_encode (.drw x y n)⟩

/-- The cover of a sprite read from memory, in terms of the bytes it stands in (R162, R164). -/
theorem covers_loadBytes (s : State) (x0 y0 a k : Nat) (px : Fin 64) (py : Fin 32) :
    Covers x0 y0 (s.loadBytes a k) px py ↔
      ∃ r c, r < k ∧ c < 8 ∧ (s.byteAt (a + r)).getLsbD (7 - c) = true ∧
        px.val = (x0 + c) % 64 ∧ py.val = (y0 + r) % 32 := by
  simp only [Covers, length_loadBytes, spriteBit, Fin.ext_iff, wrapX, wrapY, Fin.ofNat]
  refine exists_congr fun r => exists_congr fun c => and_congr_right fun hr => ?_
  rw [getD_loadBytes s a k r hr]

/-- DXYN changes the pixels its sprite covers, and collides exactly when it turns some pixel off (R162, R163). -/
theorem drawing_spec (s : State) (x y n : Nibble) :
    (∀ px py, pixel (drawing s x y n).1 px py ≠ pixel s.fb px py ↔
      Covers (s.getV x).toNat (s.getV y).toNat (s.loadBytes s.base n.toNat) px py) ∧
    ((drawing s x y n).2 = true ↔ ∃ px py, pixel s.fb px py = true ∧ pixel (drawing s x y n).1 px py = false) := by
  have hlen : (s.loadBytes s.base n.toNat).length ≤ 32 := by
    rw [length_loadBytes]
    exact (regIndex_lt n).le.trans (by decide)
  obtain ⟨hpixel, hflag⟩ := drawRows_spec (s.fb, false) (s.getV x).toNat (s.getV y).toNat _ hlen
  unfold drawing
  refine ⟨hpixel, ?_⟩
  rw [hflag, or_iff_right Bool.false_ne_true]
  refine exists_congr fun px => exists_congr fun py => ?_
  rw [← hpixel, and_comm]
  exact and_congr_right fun hon => by rw [hon, ne_eq, Bool.not_eq_true]

theorem toNat_vf_effect_drw (s : State) (x y n : Nibble) :
    ((effect (.drw x y n) s).getV 0xF#4).toNat = (drawing s x y n).2.toNat :=
  (congrArg BitVec.toNat (getV_setFlag { s.advance with fb := (drawing s x y n).1 } _ 0xF#4)).trans (toNat_flagByte _)

/-- Settles O34: in range, DXYN leaves its effect: a drawing that changes the covered pixels, then the collision in VF. -/
theorem drawFlipsCoveredPixels : Obligations.DrawFlipsCoveredPixels := by
  intro s x y n
  obtain ⟨hpixel, hcollides⟩ := drawing_spec s x y n
  refine ⟨encodes_drw x y n, fun hr => ⟨effect (.drw x y n) s, exec_of_not_raises ?range, fun px py => ?pixels, ?flag,
    effect_onlyRegs (.drw x y n) s, ⟨effect_pc s rfl, rfl⟩, effect_frame (.drw x y n) s⟩⟩
  case range => exact raises_drw_eq_none.mpr (hr.imp_left (congrArg BitVec.toNat))
  case pixels => exact (hpixel px py).trans (covers_loadBytes ..)
  case flag =>
    rw [toNat_vf_effect_drw]
    cases hc : (drawing s x y n).2 with
    | true => exact .inl ⟨rfl, hcollides.mp hc⟩
    | false => exact .inr ⟨rfl, fun hoff => Bool.false_ne_true (hc.symm.trans (hcollides.mpr hoff))⟩

/-- Settles O35: I, the bytes of the sprite and the coordinates outlast the first draw, so the second changes the same pixels
and with that undoes it; the pixels it finds on and turns off are those the first turned on. -/
theorem drawTwiceRestores : Obligations.DrawTwiceRestores := by
  intro s x y n hx hy hr
  obtain ⟨-, hdraws⟩ := drawFlipsCoveredPixels s x y n
  obtain ⟨t, hfirst, hpixel, -, hregs, -, hframe⟩ := hdraws hr
  have hi : t.i = s.i := hframe .index (by simp)
  have hmem : ∀ a, t.byteAt a = s.byteAt a := hframe .mem (by simp)
  have hvx : t.getV x = s.getV x := hregs x (by simpa using hx)
  have hvy : t.getV y = s.getV y := hregs y (by simpa using hy)
  obtain ⟨-, hredraws⟩ := drawFlipsCoveredPixels t x y n
  simp only [hi, hmem, hvx, hvy] at hredraws
  obtain ⟨u, hsecond, hpixel', hflag, -⟩ := hredraws hr
  have hrestored : ∀ px py, pixel u.fb px py = pixel s.fb px py := by
    intro px py
    have hsame : pixel u.fb px py ≠ pixel t.fb px py ↔ pixel t.fb px py ≠ pixel s.fb px py :=
      (hpixel' px py).trans (hpixel px py).symm
    by_cases hflip : pixel t.fb px py ≠ pixel s.fb px py
    · rw [Bool.eq_not.mpr (hsame.mpr hflip), Bool.eq_not.mpr hflip, Bool.not_not]
    · exact (not_not.mp (mt hsame.mp hflip)).trans (not_not.mp hflip)
  refine ⟨t, u, hfirst, hsecond, hrestored, ?_⟩
  simp only [hrestored, and_comm (a := pixel t.fb _ _ = true)] at hflag
  obtain ⟨hvf, hon⟩ | ⟨hvf, hoff⟩ := hflag
  · exact iff_of_true hvf hon
  · exact iff_of_false (by omega) hoff

end Sys2Proof.Machine
end

section
/-! SUPPORT. The keypad (46_keypad.md R170 to R175): EX9E and EXA1 compare with the latch, FX0A enters the key wait, and the wait
lasts until a step sees a key. -/

namespace Sys2Proof.Machine

variable {ps qs : List Part} {s t : State}

/-! ### The key skips -/

/-- The whole byte is compared with the latched code, so a byte above 15 names no key (R170). -/
theorem keyIs_iff (s : State) (v : Byte) : s.keyIs v = true ↔ ∃ k, s.key = some k ∧ v.toNat = k.toNat := by
  unfold State.keyIs
  cases s.key with
  | none => simp
  | some k =>
    have hcode : (k.setWidth 8 : Byte).toNat = k.toNat := BitVec.toNat_setWidth_of_le (by decide)
    simp only [decide_eq_true_eq, Option.some.injEq, exists_eq_left']
    rw [← BitVec.toNat_inj, hcode]

/-- Settles O24: both answer outright with the advance and a skip, taken by the comparison and by its complement. -/
theorem keySkips : Obligations.KeySkips := by
  intro s x
  simp only [← keyIs_iff, Bool.not_eq_true]
  refine ⟨⟨encodes_xImm 0xE#4 rfl, _, rfl, advance_skipIf_outcome .., effect_frame (.skp x) s, fun hkey => ?_, fun hkey => ?_⟩,
    ⟨encodes_xImm 0xE#4 rfl, _, rfl, advance_skipIf_outcome .., effect_frame (.sknp x) s, fun hkey => ?_, fun hkey => ?_⟩⟩ <;>
    rw [advance_skipIf_pc, hkey] <;> rfl

/-! ### The key wait -/

/-- Settles O25: FX0A answers outright with its effect, which does not look at the latch. -/
theorem keyWaitEntered : Obligations.KeyWaitEntered :=
  fun s x => ⟨encodes_xImm 0xF#4 rfl, effect (.ldKey x) s, rfl, rfl, rfl, rfl, effect_pc s rfl, effect_frame (.ldKey x) s⟩

theorem step_blocked (hl : s.launched = true) (hm : s.mode = .awaitingKey) (hk : s.key = none) :
    step s = .next { s with outcome := .blocked } := by
  rw [step_awaiting hl hm, awaitStep_none hk]

/-- A blocked step leaves the machine waiting as before, so any number of them differs from none in the outcome alone. -/
theorem steps_blocked (k : Nat) (hl : s.launched = true) (hm : s.mode = .awaitingKey) (hk : s.key = none) :
    ∃ o, steps k s = .next { s with outcome := o } ∧ (0 < k → o = .blocked) := by
  induction k with
  | zero => exact ⟨s.outcome, rfl, fun h => absurd h (lt_irrefl 0)⟩
  | succ k ih =>
    obtain ⟨o, hrun, -⟩ := ih
    have hlast : step { s with outcome := o } = .next { s with outcome := .blocked } := step_blocked hl hm hk
    exact ⟨.blocked, (steps_snoc hrun).trans hlast, fun _ => rfl⟩

theorem Frame.mono (h : Frame ps s t) (hsub : ps ⊆ qs) : Frame qs s t := fun p hp => h p (mt (@hsub p) hp)

theorem Frame.setKey (h : Frame ps s t) (hw : .key ∈ ps) (k : Option Nibble) : Frame ps s (setKey k t) := by
  intro p hp
  cases p with
  | key => exact absurd hw hp
  | _ => exact h _ hp

/-- Settles O58: blocked steps change the outcome alone, and the step after the key is set is `awaitingStepResolvesOnKey`. -/
theorem waitLastsUntilKey : Obligations.WaitLastsUntilKey := by
  intro k s c hl hm hk
  obtain ⟨o, hrun, hout⟩ := steps_blocked k hl hm hk
  obtain ⟨hresolves, -⟩ := awaitingStepResolvesOnKey (setKey (some c) { s with outcome := o }) hl hm
  obtain ⟨u, hstep, hv, hmode, hok, hpc, hregs, hframe⟩ := hresolves c rfl
  have hkeyed : Frame [.regs, .mode, .key] s (setKey (some c) { s with outcome := o }) :=
    ((Frame.refl _ s).setOutcome o).setKey (by simp) (some c)
  exact ⟨_, hrun, rfl, hout, u, hstep, hv, hmode, hok, hpc, hregs, hkeyed.trans (hframe.mono (by simp))⟩

end Sys2Proof.Machine
end

section
/-! SUPPORT. The timer transfers (47_timers.md R181 to R183). -/

namespace Sys2Proof.Machine

/-- Settles O26: each answers outright with its effect; FX07 writes one register, and the rows of FX15 and FX18 in the table
R43 are one timer each, so SND_REP is kept while the sound request follows the new ST. -/
theorem timerTransfers : Obligations.TimerTransfers := by
  intro s x
  refine ⟨⟨encodes_xImm 0xF#4 rfl, _, rfl, getV_setV_self .., writesRegs_setV ..⟩,
    ⟨encodes_xImm 0xF#4 rfl, _, rfl, rfl, ⟨rfl, rfl⟩, effect_frame (.ldToDt x) s⟩,
    ⟨encodes_xImm 0xF#4 rfl, _, rfl, rfl, ?request, ⟨rfl, rfl⟩, effect_frame (.ldToSt x) s⟩⟩
  case request => exact soundRequested_iff (effect (.ldToSt x) s)

end Sys2Proof.Machine
end

section
/-! SUPPORT. Faults (60_exceptions.md R200 to R214): they are precise, only the instructions of the table R210 raise them, and
a halted machine stays halted until a load. -/

namespace Sys2Proof.Machine

variable {s : State}

/-! ### The mode and the fault record -/

theorem fault_not_mem_mayWrite (i : Instr) : .fault ∉ mayWrite i := by cases i <;> simp [mayWrite]

/-- FX0A alone has the mode in its row (10_state.md R36, R43). -/
theorem mode_mem_mayWrite {i : Instr} (h : .mode ∈ mayWrite i) : ∃ x, i = .ldKey x := by
  cases i
  case ldKey x => exact ⟨x, rfl⟩
  all_goals simp [mayWrite] at h

theorem effect_mode (i : Instr) (s : State) :
    (effect i s).mode = s.mode ∨ ∃ x, i = .ldKey x ∧ (effect i s).mode = .awaitingKey := by
  by_cases hw : .mode ∈ mayWrite i
  · obtain ⟨x, rfl⟩ := mode_mem_mayWrite hw
    exact .inr ⟨x, rfl, rfl⟩
  · exact .inl (effect_frame i s .mode hw)

theorem effect_mode_ne_halted (i : Instr) (h : s.mode ≠ .halted) : (effect i s).mode ≠ .halted := by
  obtain hm | ⟨_, -, hm⟩ := effect_mode i s
  · rwa [hm]
  · simp [hm]

theorem awaitStep_mode_ne_halted (h : s.mode ≠ .halted) : s.awaitStep.mode ≠ .halted := by
  cases hk : s.key with
  | some k => simp [awaitStep_some hk]
  | none => rwa [awaitStep_none hk]

/-- Settles O36: of the ways a step can go only the two that take a fault, at the fetch or in an instruction, end in Halted. -/
theorem faultsArePrecise : Obligations.FaultsArePrecise := by
  intro s t hm hs hhalted
  obtain ⟨h, -⟩ | ⟨-, rfl⟩ | ⟨-, f, -, rfl⟩ | ⟨-, w, i, -, -, he⟩ | ⟨-, w, u, -, -, rfl⟩ := step_cases hs
  · exact absurd h hm
  · exact absurd hhalted (awaitStep_mode_ne_halted hm)
  · exact ⟨f, faultTaken_takeFault f s⟩
  · obtain ⟨f, -, rfl⟩ | ⟨-, rfl⟩ := exec_cases he
    · exact ⟨f, faultTaken_takeFault f s⟩
    · exact absurd hhalted (effect_mode_ne_halted i hm)
  · exact absurd hhalted hm

/-- Settles O37: a listed fault is taken at entry; where none is listed the effect keeps the record, and the mode but for FX0A. -/
theorem onlyListedInstructionsFault : Obligations.OnlyListedInstructionsFault := fun i s =>
  ⟨fun _ h => exec_faultTaken_of_raises h,
    fun h => ⟨effect i s, exec_of_not_raises h, effect_frame i s .fault (fault_not_mem_mayWrite i), effect_mode i s⟩⟩

/-! ### Halted until a load (R213, R214) -/

/-- A transaction other than `load` leaves a halted machine as it is but for the timers, the sound report and the key latch,
and a step reports the recorded fault. -/
theorem transact_halted {tr : Transaction} {f : FaultRecord} (hload : tr.isLoad = false) (hl : s.launched = true)
    (hm : s.mode = .halted) (hf : s.fault = some f) :
    ∃ r t, transact tr s = .next (r, t) ∧ (∀ o, r = .step o → o = .fault f) ∧ t.pc = s.pc ∧
      Frame [.delay, .sound, .key, .report] s t := by
  cases tr with
  | load bytes => cases hload
  | step =>
    refine ⟨.step (.fault f), { s with outcome := .fault f }, by simp [transact, step_halted hl hm hf], ?_, rfl,
      (Frame.refl _ s).setOutcome _⟩
    rintro o ⟨⟩
    rfl
  | tickTimers => exact ⟨_, _, rfl, by simp, rfl, (tickTimers_frame s).mono (by simp)⟩
  | setKey k => exact ⟨_, _, rfl, by simp, rfl, (Frame.refl _ s).setKey (by simp) k⟩
  | display => exact ⟨_, _, rfl, by simp, rfl, Frame.refl _ s⟩

/-- Settles O38, by induction on the schedule: the frame of a transaction keeps the mode, the record and the launch mark. -/
theorem haltedUntilLoad : Obligations.HaltedUntilLoad := by
  intro ts
  induction ts with
  | nil => exact fun s f _ hm hf _ => ⟨[], s, rfl, hm, hf, rfl, by simp, Frame.refl _ s⟩
  | cons tr ts ih =>
    intro s f hl hm hf hload
    simp only [List.forall_mem_cons] at hload
    obtain ⟨hload, hloads⟩ := hload
    obtain ⟨r, t, htr, hr, hpc, hframe⟩ := transact_halted hload hl hm hf
    have hlt : t.launched = true := (hframe .launched (by simp)).trans hl
    have hmt : t.mode = .halted := (hframe .mode (by simp)).trans hm
    have hft : t.fault = some f := (hframe .fault (by simp)).trans hf
    obtain ⟨rs, u, hrun, hmu, hfu, hpcu, hrs, hframe'⟩ := ih t f hlt hmt hft hloads
    refine ⟨r :: rs, u, by simp [runSchedule, htr, hrun], hmu, hfu, hpcu.trans hpc, fun o ho => ?_, hframe.trans hframe'⟩
    obtain ho | ho := List.mem_cons.mp ho
    · exact hr o ho.symm
    · exact hrs o ho

/-! ### Nested calls (R201) -/

/-- Calls that the stack has room for complete one after another, each adding an entry. -/
theorem callAll_of_room (as : List Addr12) (h : s.sp.val + as.length ≤ 16) :
    ∃ t, callAll as s = .next t ∧ t.sp.val = s.sp.val + as.length ∧ (as = [] ∨ t.outcome = .ok) ∧ Frame [.stack] s t := by
  induction as generalizing s with
  | nil => exact ⟨s, rfl, rfl, .inl rfl, Frame.refl _ s⟩
  | cons a as ih =>
    rw [List.length_cons] at h ⊢
    obtain ⟨-, hroom, -⟩ := callPushesReturnAddress s a
    obtain ⟨t, hcall, -, hout, hsp, -, hframe⟩ := hroom (by omega)
    obtain ⟨u, hcalls, hspu, houtu, hframe'⟩ := ih (s := t) (by omega)
    refine ⟨u, by simp [callAll, hcall, hcalls], by omega, .inr ?_, hframe.trans hframe'⟩
    obtain rfl | houtu := houtu
    · cases hcalls
      exact hout
    · exact houtu

/-- Settles O52: sixteen calls fill an empty stack, and a call on a full stack is `callPushesReturnAddress`. -/
theorem sixteenCallsThenOverflow : Obligations.SixteenCallsThenOverflow := by
  intro s as a hempty hlen
  obtain ⟨t, hcalls, hsp, hout, hframe⟩ := callAll_of_room (s := s) as (by omega)
  have hfull : t.sp.val = 16 := by omega
  have hok : t.outcome = .ok := hout.resolve_left (by rintro rfl; cases hlen)
  obtain ⟨-, -, hoverflow⟩ := callPushesReturnAddress t a
  obtain ⟨u, hcall, hfault⟩ := hoverflow hfull
  exact ⟨t, u, hcalls, hfull, hok, hframe, hcall, hfault⟩

end Sys2Proof.Machine
end

section
/-! SUPPORT. The optional trace (60_exceptions.md R221): which steps emit a record, and what it says. -/

namespace Sys2Proof.Machine

variable {s : State}

theorem traceOf_unlaunched (hl : s.launched = false) : traceOf s = none := by simp [traceOf, hl]

theorem traceOf_not_running (hm : s.mode ≠ .running) : traceOf s = none := by
  cases hl : s.launched with
  | false => exact traceOf_unlaunched hl
  | true =>
    cases hm' : s.mode with
    | running => exact absurd hm' hm
    | awaitingKey | halted => simp [traceOf, hl, hm']

theorem traceOf_fetchFault {f : FaultRecord} (hf : s.fetch = .error f) : traceOf s = none := by
  cases hl : s.launched with
  | false => exact traceOf_unlaunched hl
  | true =>
    by_cases hm : s.mode = .running
    · simp [traceOf, hl, hm, hf]
    · exact traceOf_not_running hm

theorem traceOf_fetched {w : Word} (hl : s.launched = true) (hm : s.mode = .running) (hf : s.fetch = .ok w) :
    traceOf s = some ⟨s.pc, w, decodedMnemonic (decode w), fieldsOf w⟩ := by
  simp [traceOf, hl, hm, hf]

/-- The mnemonic of an instruction is that of its row (30_encoding.md R81). -/
theorem mnemonicOf_of_row {i : Instr} {r : Row} (h : rows[rowIndex i]? = some r) : mnemonicOf i = r.mnemonic := by
  simp [mnemonicOf, h]

/-- Settles O59: the conditions one at a time; the row of a decoded word is `row_of_decode`, the fields are the word's digits. -/
theorem traceRecordsFetchedWords : Obligations.TraceRecordsFetchedWords := by
  refine fun s => ⟨?none, fun hl hm w hf => ?record⟩
  case none =>
    rintro (hl | hm | hpc)
    · exact traceOf_unlaunched hl
    · exact traceOf_not_running hm
    · exact traceOf_fetchFault (fetch_of_lt_pc hpc)
  case record =>
    have hw := w.isLt
    have hop : (opField w).toNat = w.toNat / 4096 := by
      rw [toNat_opField]
      omega
    refine ⟨_, traceOf_fetched hl hm hf, rfl, rfl, fun i hd => ?known, fun hd => ?unknown,
      hop, toNat_xField w, toNat_yField w, toNat_nField w, toNat_nnField w, toNat_nnnField w⟩
    case known =>
      obtain ⟨r, hr, -⟩ := row_of_decode hd
      exact ⟨r, hr, by rw [hd, decodedMnemonic, mnemonicOf_of_row hr]⟩
    case unknown => rw [hd, decodedMnemonic]

end Sys2Proof.Machine
end

section
/-! SUPPORT. Two long runs: into zeroed memory to its end (70_reset_and_hazards.md R246), and of a finished program (R245). -/

namespace Sys2Proof.Machine

variable {s : State}

/-! ### Off the end of memory -/

/-- A running step onto two zero bytes reports the unknown word 0x0000 and goes on (40_step_cycle.md R98). -/
theorem step_zeroWord (hl : s.launched = true) (hm : s.mode = .running) (hpc : s.pc.toNat ≤ 0xFFE)
    (hhi : s.byteAt s.pc.toNat = 0#8) (hlo : s.byteAt (s.pc.toNat + 1) = 0#8) : step s = .next (s.unknownStep 0#16) := by
  have hf : s.fetch = .ok (wordOfBytes 0#8 0#8) := by rw [fetch_of_pc_le hpc, hhi, hlo]
  exact step_unknown hl hm hf (by decide)

/-- As long as two zero bytes are left, each step reports the unknown word and moves on by 2. -/
theorem steps_zeroed (hl : s.launched = true) (hm : s.mode = .running)
    (hzero : ∀ a, s.pc.toNat ≤ a → a < 4096 → s.byteAt a = 0#8) (k : Nat) (hk : s.pc.toNat + 2 * k ≤ 4096) :
    ∃ t, steps k s = .next t ∧ t.pc.toNat = s.pc.toNat + 2 * k ∧ (0 < k → t.outcome = .unknownOpcode 0#16) ∧
      Frame [] s t := by
  induction k with
  | zero => exact ⟨s, rfl, rfl, fun h => absurd h (lt_irrefl 0), Frame.refl _ s⟩
  | succ k ih =>
    obtain ⟨t, hrun, hpc, -, hframe⟩ := ih (by omega)
    have hlt : t.launched = true := (hframe .launched (by simp)).trans hl
    have hmt : t.mode = .running := (hframe .mode (by simp)).trans hm
    have hmem : ∀ a, t.byteAt a = s.byteAt a := hframe .mem (by simp)
    have hlast : step t = .next (t.unknownStep 0#16) :=
      step_zeroWord hlt hmt (by omega) ((hmem _).trans (hzero _ (by omega) (by omega)))
        ((hmem _).trans (hzero _ (by omega) (by omega)))
    have hnext : (t.unknownStep 0#16).pc.toNat = t.pc.toNat + 2 := BitVec.toNat_add_of_lt (by simp; omega)
    exact ⟨_, (steps_snoc hrun).trans hlast, by omega, fun _ => rfl, hframe.trans (unknownStep_frame _ t)⟩

/-- Settles O56: `steps_zeroed` up to 4096 or 0xFFF, by parity, where the fetch of the last step fails. -/
theorem runOffTheEndHalts : Obligations.RunOffTheEndHalts := by
  intro s hl hm hle hzero
  refine ⟨fun k hk => steps_zeroed hl hm hzero k (by omega), ?_⟩
  obtain ⟨t, hrun, hpc, -, hframe⟩ := steps_zeroed hl hm hzero ((4096 - s.pc.toNat) / 2) (by omega)
  have hlt : t.launched = true := (hframe .launched (by simp)).trans hl
  have hmt : t.mode = .running := (hframe .mode (by simp)).trans hm
  have hend : t.pc = if s.pc.toNat % 2 = 0 then 0x1000#16 else 0xFFF#16 := by
    apply BitVec.eq_of_toNat_eq
    split <;> simp <;> omega
  have hfetch := fetch_of_lt_pc (s := t) (by omega)
  rw [Nat.max_eq_right (by omega)] at hfetch
  refine ⟨_, (steps_snoc hrun).trans (step_fetchFault hlt hmt hfetch), rfl, ?_, hend,
    (hframe.mono (by simp)).trans (takeFault_frame _ t)⟩
  rw [takeFault_fault, hend]

/-! ### A finished program -/

theorem finished_iff : s.finished = true ↔
    s.mode = .running ∧ s.pc.toNat < 4096 ∧ ∃ w, s.fetch = .ok w ∧ decode w = .instr (.jp (s.pc.setWidth 12)) := by
  unfold State.finished
  cases s.mode <;> cases s.fetch <;> simp [and_comm]

/-- An address below 4096 survives the 12-bit field of a jump (41_flow.md R112). -/
theorem addrOperand_setWidth {a : Word} (h : a.toNat < 4096) : addrOperand (a.setWidth 12) = a := by
  apply BitVec.eq_of_toNat_eq
  rw [toNat_addrOperand, BitVec.toNat_setWidth]
  exact Nat.mod_eq_of_lt h

theorem step_finished (hl : s.launched = true) (h : s.finished = true) : step s = .next { s with outcome := .ok } := by
  obtain ⟨hm, hpc, w, hf, hd⟩ := finished_iff.mp h
  rw [step_instr hl hm hf hd, exec_of_not_raises rfl]
  simp only [effect, exec, execJp, addrOperand_setWidth hpc]
  rfl

/-- What is finished does not depend on the outcome, so every further step is the same step again. -/
theorem steps_finished (k : Nat) (hl : s.launched = true) (h : s.finished = true) :
    steps (k + 1) s = .next { s with outcome := .ok } := by
  induction k with
  | zero => exact steps_succ 0 (step_finished hl h)
  | succ k ih => exact (steps_snoc ih).trans (step_finished (s := { s with outcome := .ok }) hl h)

/-- Settles O57: the state `steps_finished` leaves differs in the outcome alone. -/
theorem finishedProgramStays : Obligations.FinishedProgramStays :=
  fun k _ hl h => ⟨_, steps_finished k hl h, h, rfl, rfl⟩

end Sys2Proof.Machine
end

section
/-! SUPPORT. Addition and subtraction with their flags, and the random byte (43_alu.md R137, R138, R140, R142). -/

namespace Sys2Proof.Machine

theorem toNat_carry (a b : Byte) : (carry a b).toNat = if a.toNat + b.toNat > 255 then 1 else 0 :=
  Bool.cond_decide _ 1 0

theorem toNat_notBorrow (a b : Byte) : (notBorrow a b).toNat = if a.toNat ≥ b.toNat then 1 else 0 :=
  Bool.cond_decide _ 1 0

theorem toNat_sub_byte (a b : Byte) : (a - b).toNat = (256 + a.toNat - b.toNat) % 256 := by
  have hb := b.isLt
  rw [BitVec.toNat_sub]
  congr 1
  omega

/-- Settles O16: the sum goes to `V[X]`, then the carry out of it to VF. -/
theorem addWithCarry : Obligations.AddWithCarry := by
  intro s x y
  refine ⟨encodes_xy 0x8#4 0x4#4 rfl, _, rfl, ?flag, fun hx => ?sum, writesRegs_setResultAndFlag ..⟩
  case flag => exact (toNat_getV_vf_setResultAndFlag ..).trans (toNat_carry ..)
  case sum => rw [getV_setResultAndFlag_dest _ hx, BitVec.toNat_add]

/-- Settles O17: a difference goes to `V[X]`, then its not-borrow to VF; 8XY7 is 8XY5 with the operands exchanged. -/
theorem subtractWithNotBorrow : Obligations.SubtractWithNotBorrow := by
  intro s x y
  refine ⟨⟨encodes_xy 0x8#4 0x5#4 rfl, _, rfl, ?_, fun hx => ?_, writesRegs_setResultAndFlag ..⟩,
    ⟨encodes_xy 0x8#4 0x7#4 rfl, _, rfl, ?_, fun hx => ?_, writesRegs_setResultAndFlag ..⟩⟩
  · exact (toNat_getV_vf_setResultAndFlag ..).trans (toNat_notBorrow ..)
  · rw [getV_setResultAndFlag_dest _ hx, toNat_sub_byte]
  · exact (toNat_getV_vf_setResultAndFlag ..).trans (toNat_notBorrow ..)
  · rw [getV_setResultAndFlag_dest _ hx, toNat_sub_byte]

theorem getV_effect_rnd (x : Nibble) (nn : Byte) (s : State) : (effect (.rnd x nn) s).getV x = Config.rnd s.draws &&& nn :=
  getV_setV_self s.advance x _

/-- Settles O19: CXNN leaves its effect, one register and the count of draws, and the mask clears every bit outside it. -/
theorem randomIsMasked : Obligations.RandomIsMasked := by
  intro s x nn
  refine ⟨encodes_xImm 0xC#4 rfl, effect (.rnd x nn) s, rfl, getV_effect_rnd x nn s, ?masked, rfl, ⟨effect_pc s rfl, rfl⟩,
    effect_onlyRegs (.rnd x nn) s, effect_frame (.rnd x nn) s⟩
  case masked =>
    rw [getV_effect_rnd, BitVec.and_assoc, BitVec.and_not_self]
    exact BitVec.and_zero

end Sys2Proof.Machine
end

section
/-! SUPPORT. The glyph address and the load of registers (44_index_memory.md R153, R156). -/

namespace Sys2Proof.Machine

/-- Settles O28: the product of a byte and 5 does not wrap, and is at most 5 * 255. -/
theorem fontAddress : Obligations.FontAddress := by
  intro s x
  have hi : (effect (.ldFont x) s).i.toNat = 5 * (s.getV x).toNat := toNat_glyphAddress s x
  have hv := (s.getV x).isLt
  exact ⟨encodes_xImm 0xF#4 rfl, effect (.ldFont x) s, rfl, hi, by omega, ⟨effect_pc s rfl, rfl⟩,
    effect_frame (.ldFont x) s⟩

/-- A register above X is no destination of FX65 (R156). -/
theorem getV_effect_ldRegs_above {x k : Nibble} (h : x.toNat < k.toNat) (s : State) :
    (effect (.ldRegs x) s).getV k = s.getV k :=
  effect_onlyRegs (.ldRegs x) s k fun hk => Nat.not_le_of_lt h ((mem_destRegs_ldRegs x k).mp hk)

/-- Settles O31: in bounds FX65 leaves its effect, a load of `V[0..X]`. -/
theorem registersLoaded : Obligations.RegistersLoaded := by
  intro s x
  refine ⟨encodes_xImm 0xF#4 rfl, fun hr => ⟨effect (.ldRegs x) s, exec_of_not_raises (raises_ldRegs_eq_none.mpr hr), ?_⟩⟩
  exact ⟨fun k hk => getV_effect_ldRegs x s hk, fun k hk => getV_effect_ldRegs_above hk s,
    ⟨effect_pc s rfl, setRegs_outcome s.advance _ _⟩, effect_frame (.ldRegs x) s⟩

end Sys2Proof.Machine
end

section
/-! SUPPORT. Words of the opcode table written out (30_encoding.md R74). -/

namespace Sys2Proof

/-- Settles O1: each word is the encoding of its instruction; the last two match no pattern. -/
theorem sampleWordsDecode : Obligations.SampleWordsDecode :=
  ⟨decode_encode .cls, decode_encode .ret, decode_encode (.call 0xABC#12), decode_encode (.seI 0x1#4 0x42#8),
    decode_encode (.sneR 0x3#4 0x4#4), decode_encode (.addR 0x3#4 0xA#4), decode_encode (.shl 0x0#4 0x1#4),
    decode_encode (.stRegs 0x2#4), decode_encode (.drw 0x1#4 0x2#4 0x3#4), decode_encode (.sknp 0x3#4),
    decode_encode (.ldKey 0x1#4), decode_encode (.ldToSt 0x0#4), by decide, by decide⟩

end Sys2Proof
end
